-- ==== Sys2Proof/Word.lean ====
section
/-! DEFINITION. The word types of OTPPD (00_scope.md R10, R11): a byte, the 32-bit bus and command word, the
64-bit register pair. -/

namespace Sys2Proof

/-- A byte of DIN or DOUT, an ASCII character of an output (R11). -/
abbrev Byte := BitVec 8

/-- The 32-bit word of the host bus and of a command (R9, R80). -/
abbrev Word := BitVec 32

/-- A 64-bit quantity: TOTP_TIME, COUNTER (R42) and the FoldedValue V (R37). -/
abbrev DWord := BitVec 64

end Sys2Proof
end

