-- ==== Sys2Proof/Syntax.lean ====
section
/-! DEFINITION. The commands of OTPPD: one constructor per row of spec/opcode_table.json (30_encoding.md R81,
R84). Operands other than the algorithm are implicit registers (R84, R89). -/

namespace Sys2Proof

/-- The algorithm identifier of ALG, command-word bits 6:4 (30_encoding.md R82). The reserved codes 5, 6 and 7
decode too (R87): `reserved` keeps the code, and `Alg.wf` says which codes it may keep. -/
inductive Alg where
  | md4
  | md5
  | sha1
  | sha256
  | sha512
  | reserved (code : BitVec 3)
  deriving DecidableEq, Repr

/-- A command (30_encoding.md R81, R84). -/
inductive Instr where
  /-- FOLD, OP 0x1 (41_fold.md R120). -/
  | fold (alg : Alg)
  /-- WORD_ENC, OP 0x2 (42_encoders.md R130). -/
  | wordEnc
  /-- HEX_ENC, OP 0x3 (42_encoders.md R136). -/
  | hexEnc
  /-- CTR_MSG, OP 0x4 (43_hotp.md R150). -/
  | ctrMsg
  /-- HOTP_TRUNC, OP 0x5 (43_hotp.md R151). -/
  | hotpTrunc (alg : Alg)
  /-- TOTP_CTR, OP 0x6 (44_totp.md R170). -/
  | totpCtr
  deriving DecidableEq, Repr

end Sys2Proof
end

