-- ==== Sys2Proof/WellFormed.lean ====
section
/-! DEFINITION. Which terms of `Instr` stand for a command word. The one thing a term can get wrong is a
`reserved` algorithm that carries a code which 30_encoding.md R82 gives a name (0 to 4). -/

namespace Sys2Proof

/-- `reserved` holds only the codes that 30_encoding.md R82 lists as reserved: 5, 6 and 7. -/
def Alg.wf : Alg → Bool
  | .reserved c => decide (5 ≤ c.toNat)
  | .md4 | .md5 | .sha1 | .sha256 | .sha512 => true

/-- The check of a command: its algorithm, where it takes one, is well formed. -/
def Instr.wf : Instr → Bool
  | .fold alg => alg.wf
  | .wordEnc => true
  | .hexEnc => true
  | .ctrMsg => true
  | .hotpTrunc alg => alg.wf
  | .totpCtr => true

/-- A command that some word encodes. -/
abbrev Instr.WellFormed (i : Instr) : Prop := i.wf = true

end Sys2Proof
end

