-- ==== Sys2Proof/Decode.lean ====
section
/-! DEFINITION. The decoder of 30_encoding.md R85, total on 32-bit words and rejecting by name (R86), and after
it the encoder, written from the field table of R80 to R82. -/

namespace Sys2Proof

/-- Why a word is illegal, one name per line of 30_encoding.md R86. -/
inductive IllegalWord where
  /-- Bits 31:7 are not all 0 (R83). -/
  | reservedBits
  /-- OP is 0x0 or 0x7..0xF (R81). -/
  | reservedOp
  /-- ALG is not 0 in WORD_ENC, HEX_ENC, CTR_MSG or TOTP_CTR (R82). -/
  | algOnAlgless
  deriving DecidableEq, Repr

/-- OP, bits 3:0 (30_encoding.md R80). -/
def opField (w : Word) : BitVec 4 := w.extractLsb' 0 4

/-- ALG, bits 6:4 (30_encoding.md R80). -/
def algField (w : Word) : BitVec 3 := w.extractLsb' 4 3

/-- RSV, bits 31:7 (30_encoding.md R80). -/
def rsvField (w : Word) : BitVec 25 := w.extractLsb' 7 25

/-- The algorithm of an ALG value (30_encoding.md R82). -/
def Alg.ofCode (c : BitVec 3) : Alg :=
  if c = 0 then .md4
  else if c = 1 then .md5
  else if c = 2 then .sha1
  else if c = 3 then .sha256
  else if c = 4 then .sha512
  else .reserved c

/-- A command that takes no algorithm: ALG must be 0 (30_encoding.md R82, R85). -/
def algless (alg : BitVec 3) (i : Instr) : Except IllegalWord Instr :=
  if alg ≠ 0 then .error .algOnAlgless else .ok i

/-- 30_encoding.md R85. -/
def decode (w : Word) : Except IllegalWord Instr :=
  let op := opField w
  let alg := algField w
  if rsvField w ≠ 0 then .error .reservedBits
  else if op = 0x1 then .ok (.fold (Alg.ofCode alg))
  else if op = 0x5 then .ok (.hotpTrunc (Alg.ofCode alg))
  else if op = 0x2 then algless alg .wordEnc
  else if op = 0x3 then algless alg .hexEnc
  else if op = 0x4 then algless alg .ctrMsg
  else if op = 0x6 then algless alg .totpCtr
  else .error .reservedOp

/-- The instruction of an opcode-table word of `nbits` bits, numbered as spec/opcode_table.json numbers them: a
command is one 32-bit word (30_encoding.md R90), and bits from `nbits` up are 0. -/
def decodeTableWord (nbits w : Nat) : Option Instr :=
  if 32 < nbits then none
  else
    match decode (BitVec.ofNat 32 (w % 2 ^ nbits)) with
    | .ok i => some i
    | .error _ => none

/-- The ALG value of an algorithm (30_encoding.md R82). -/
def Alg.code : Alg → BitVec 3
  | .md4 => 0
  | .md5 => 1
  | .sha1 => 2
  | .sha256 => 3
  | .sha512 => 4
  | .reserved c => c

/-- A command word from its fields: `OP | ALG << 4`, RSV = 0 (30_encoding.md R80, R91). -/
def commandWord (op : BitVec 4) (alg : BitVec 3) : Word := (0 : BitVec 25) ++ alg ++ op

/-- The command word of an instruction (30_encoding.md R81, R84). -/
def encode : Instr → Word
  | .fold alg => commandWord 0x1 alg.code
  | .wordEnc => commandWord 0x2 0
  | .hexEnc => commandWord 0x3 0
  | .ctrMsg => commandWord 0x4 0
  | .hotpTrunc alg => commandWord 0x5 alg.code
  | .totpCtr => commandWord 0x6 0

end Sys2Proof
end

