-- ==== Sys2Proof/Config.lean ====
section
/-! DEFINITION. What the spec leaves OPEN (00_scope.md R9) or unconstrained (40_host_access.md R106). Each is a
constant with no body, so a proof holds whatever its value is. -/

namespace Sys2Proof

/-- An uppercase ASCII letter, 0 for 'A' to 25 for 'Z' (42_encoders.md R133 (a)). -/
abbrev Letter := Fin 26

/-- A dictionary word: 1 to 4 uppercase letters, so that R133 (a) holds by the type (log 8). -/
inductive DictWord where
  | one (a : Letter)
  | two (a b : Letter)
  | three (a b c : Letter)
  | four (a b c d : Letter)
  deriving DecidableEq, Repr, Fintype

/-- A word of its own for each index: where `Config.wordOrder` is applied, not DICT. It says only that 2048 different
words exist. -/
def indexWord (i : BitVec 11) : DictWord :=
  .three (Fin.ofNat 26 (i.toNat / 676)) (Fin.ofNat 26 (i.toNat / 26)) (Fin.ofNat 26 i.toNat)

/-- Which dictionary DICT is: OPEN (R9, R40, R133; log 8). A permutation of all words, so that DICT is injective (R133 (b))
whatever it is, and every injective dictionary is DICT for some permutation (`Config.every_dictionary`). -/
opaque Config.wordOrder : Equiv.Perm DictWord

/-- DICT, the word dictionary ROM (R40, R133). -/
def Config.dict (i : BitVec 11) : DictWord := Config.wordOrder (indexWord i)

/-- BASE / 4096: OPEN (R9, R61; log 9). -/
opaque Config.windowNumber : Nat

/-- BASE, the address of the 4 KiB register window, aligned to 4 KiB (R9, R61). -/
def Config.base : Nat := 4096 * Config.windowNumber

/-- The unconstrained word that the n-th result-register read under BUSY = 1 returns: `draw32()` of
40_host_access.md R106 (log 3). -/
opaque Config.draw32 : Nat → Word

end Sys2Proof
end

