-- ==== Sys2Proof/Machine/State.lean ====
section
/-! DEFINITION. The state of OTPPD (10_state.md R21), what can stop a run, and the state after reset
(70_reset_and_hazards.md R201). -/

namespace Sys2Proof.Machine

/-- A byte buffer, DIN or DOUT (20_memory.md R60): the cells whose byte is not 0x00, by rising address. An address
not listed reads 0x00, the reset contents of R33, R34 and R201 (log 11). -/
abbrev Memory := List Host.Cell

/-- The canonical form: addresses strictly rise and no listed byte is 0x00. -/
abbrev Memory.wf (m : Memory) : Prop :=
  m.Pairwise (fun c d => c.1 < d.1) ∧ ∀ c ∈ m, c.2 ≠ 0

/-- Every listed address is below n: the buffer holds no byte outside its n bytes. -/
abbrev Memory.below (m : Memory) (n : Nat) : Prop := ∀ c ∈ m, c.1 < n

/-- The fields of STATUS (10_state.md R25, R44). The reserved bits 31:9 hold nothing (log 17). -/
structure Status where
  /-- Bit 0. -/
  busy : Bool
  /-- Bit 1. -/
  done : Bool
  /-- Bit 2. -/
  err : Bool
  /-- Bit 3, VVALID (R38). -/
  vvalid : Bool
  /-- Bits 7:4 (60_exceptions.md R180). -/
  ecode : BitVec 4
  /-- Bit 8. -/
  ovr : Bool
  deriving DecidableEq, Repr

/-- The error kinds of 60_exceptions.md R180. -/
inductive ErrorKind where
  /-- Host software only, never raised by OTPPD (R6, R180). -/
  | invalidPassPhraseLength
  /-- Host software only, never raised by OTPPD (R6, R180). -/
  | invalidSeed
  /-- Host software only, never raised by OTPPD (R6, R180). -/
  | invalidChallengeFormat
  | unsupportedAlgorithm
  | invalidOffset
  | invalidTimeInput
  | unsupportedDigestWidth
  | illegalCommand
  | noValue
  | invalidParameter
  deriving DecidableEq, Repr

/-- A host bus access: an address, a size in bits and, for a write, the data word (40_host_access.md R100, R101). -/
inductive Access where
  | write (addr size : Nat) (data : Word)
  | read (addr size : Nat)
  deriving DecidableEq, Repr

/-- What the bus answers to an access (40_host_access.md R100, R101, R107). -/
inductive BusResponse where
  /-- No access has been answered since reset. -/
  | none
  /-- A write was accepted. -/
  | written
  /-- A read was accepted and returned this word. -/
  | data (w : Word)
  /-- The access was refused (R107). -/
  | busError
  deriving DecidableEq, Repr

/-- One event of the total order in which Host, Block and Reset interleave (00_scope.md R14, 20_memory.md R69;
log 5). -/
inductive Turn where
  /-- The Host makes an access. -/
  | host (a : Access)
  /-- The Block takes its completion step, if it is enabled (60_exceptions.md R184). -/
  | block
  /-- Reset is asserted (70_reset_and_hazards.md R200). -/
  | reset
  deriving DecidableEq, Repr

/-- The complete architectural state of OTPPD (10_state.md R21), and three fields of the model's own: `agenda`,
`bus` and `draws` (log 5, 10, 3). CMD stores nothing (R24); DICT is a ROM, `Config.dict` (R40). -/
structure State where
  /-- STATUS (R25), with VVALID (R38) as its bit 3. -/
  status : Status
  /-- HOTP_CFG (R26): DIGITS 3:0, CHK 4, TOFF 15:8; the other bits are 0 (R41, R108). -/
  hotpCfg : Word
  /-- TOTP_STEP (R27). -/
  totpStep : Word
  /-- TOTP_TIME (R28, R42). -/
  totpTime : DWord
  /-- TOTP_UTCOFF (R29). -/
  totpUtcoff : BitVec 8
  /-- COUNTER (R30, R42). -/
  counter : DWord
  /-- SNUM (R31). -/
  snum : BitVec 31
  /-- DOUT_LEN (R32). -/
  doutLen : BitVec 6
  /-- DIN (R33), addresses 0..63. -/
  din : Memory
  /-- DOUT (R34), addresses 0..31. -/
  dout : Memory
  /-- PARITY (R35). -/
  parity : BitVec 2
  /-- WIDX0..WIDX5 (R36). -/
  widx : Vector (BitVec 11) 6
  /-- V, the FoldedValue (R37). -/
  v : DWord
  /-- CUR, the command word latched at issue (R39). -/
  cur : Word
  /-- The model's own: the turns that lie ahead, the next one first (log 5). -/
  agenda : List Turn
  /-- The model's own: the response to the last accepted access (log 10). -/
  bus : BusResponse
  /-- The model's own: how many unconstrained reads have been answered (log 3). -/
  draws : Nat
  deriving DecidableEq, Repr

/-- What stops a run. -/
inductive Fault where
  /-- Raised by the host's turn whose access is refused: wrong size, misaligned or unmapped (40_host_access.md
  R107: "A model of a host program treats a BusError as a fault of that host step"). Safe: OTPPD's own state is
  unchanged (`busAccess` says so), and the host's behaviour is outside the model (log 4). -/
  | busError (a : Access)
  deriving DecidableEq, Repr

/-- Why a command is turned away without a meaning. -/
inductive Refusal where
  /-- The command of this mnemonic has no meaning yet. Raised by an arm of `exec` alone. Safe: nothing is claimed of
  the command. No arm of this model raises it. -/
  | notModelled (mnemonic : String)
  deriving DecidableEq, Repr

/-- The three outcomes of a step or a meaning of this machine. -/
abbrev Outcome := Host.Outcome State Fault Refusal

/-- The state just after reset: 70_reset_and_hazards.md R201. V and CUR: DESIGN CHOICE 0, the spec gives none (log 1,
log 2). The model's own fields: no turn lies ahead, no access has been answered, no free word has been drawn
(DESIGN CHOICE, log 5, 10, 3). -/
def State.reset : State where
  status := { busy := false, done := false, err := false, vvalid := false, ecode := 0, ovr := false }
  hotpCfg := 0x0000FF06
  totpStep := 30
  totpTime := 0
  totpUtcoff := 0
  counter := 0
  snum := 0
  doutLen := 0
  din := []
  dout := []
  parity := 0
  widx := #v[0, 0, 0, 0, 0, 0]
  v := 0
  cur := 0
  agenda := []
  bus := .none
  draws := 0

end Sys2Proof.Machine
end

