-- ==== Sys2Proof/Machine/Flags.lean ====
section
/-! DEFINITION. The status flags (10_state.md R25, R44): the word STATUS reads as, the error codes, and every way a
flag is written. -/

namespace Sys2Proof.Machine

/-- The word a read of STATUS returns: OVR at bit 8, ECODE 7:4, VVALID 3, ERR 2, DONE 1, BUSY 0, the rest 0
(10_state.md R25). -/
def Status.word (st : Status) : Word :=
  (0 : BitVec 23) ++ BitVec.ofBool st.ovr ++ st.ecode ++ BitVec.ofBool st.vvalid ++ BitVec.ofBool st.err
    ++ BitVec.ofBool st.done ++ BitVec.ofBool st.busy

/-- The ECODE of an error (60_exceptions.md R180). -/
def ErrorKind.code : ErrorKind → BitVec 4
  | .invalidPassPhraseLength => 1
  | .invalidSeed => 2
  | .invalidChallengeFormat => 3
  | .unsupportedAlgorithm => 4
  | .invalidOffset => 5
  | .invalidTimeInput => 6
  | .unsupportedDigestWidth => 7
  | .illegalCommand => 8
  | .noValue => 9
  | .invalidParameter => 10

/-- Issue: BUSY is set, DONE, ERR and ECODE are cleared (40_host_access.md R104). -/
def Status.issued (st : Status) : Status :=
  { st with busy := true, done := false, err := false, ecode := 0 }

/-- Success completion (60_exceptions.md R184). -/
def Status.succeeded (st : Status) : Status :=
  { st with busy := false, done := true, err := false, ecode := 0 }

/-- Error completion with the code of `k` (60_exceptions.md R185). -/
def Status.failed (st : Status) (k : ErrorKind) : Status :=
  { st with busy := false, done := true, err := true, ecode := k.code }

/-- A successful FOLD sets VVALID (10_state.md R38). -/
def Status.withValue (st : Status) : Status := { st with vvalid := true }

/-- A dropped write sets OVR (40_host_access.md R103). -/
def Status.overrun (st : Status) : Status := { st with ovr := true }

/-- A host write of w to STATUS: `OVR <- OVR & ~w[8]`, nothing else (40_host_access.md R105). -/
def Status.written (st : Status) (w : Word) : Status := { st with ovr := st.ovr && !w.getLsbD 8 }

end Sys2Proof.Machine
end

