-- ==== Sys2Proof/Machine/Ops.lean ====
section
/-! DEFINITION. The shared operations: big-endian byte sequences (00_scope.md R11), the byte buffers (R13,
20_memory.md R63), the named register updates, and the two completions (60_exceptions.md R184, R185).

Error completion, `errorComplete`, is what this hardware has for taking an exception (R183). There is no return
from one: DONE, ERR and ECODE stand until the next issue or reset (R189). -/

namespace Sys2Proof.Machine

/-! ### Byte sequences (00_scope.md R11) -/

/-- `BE(b[0..n-1])`: the first byte is the most significant. -/
def beNat (bs : List Byte) : Nat := bs.foldl (fun acc b => acc * 256 + b.toNat) 0

/-- `BEbytes_n(v)`: the n bytes whose `BE` is v (taken modulo 256^n). -/
def beBytes (n v : Nat) : List Byte := (List.range n).map fun k => BitVec.ofNat 8 (v / 256 ^ (n - 1 - k))

/-! ### Byte buffers (00_scope.md R13) -/

/-- The byte at an address: the listed one, or 0x00. -/
def Memory.read : Memory → Nat → Byte
  | [], _ => 0
  | c :: m, a => if c.1 = a then c.2 else Memory.read m a

/-- A cell put in its place by address. -/
def Memory.insertCell (c : Host.Cell) : Memory → Memory
  | [] => [c]
  | d :: m => if c.1 < d.1 then c :: d :: m else d :: Memory.insertCell c m

/-- One byte written; writing 0x00 removes the cell, so the form stays canonical. -/
def Memory.write (m : Memory) (a : Nat) (b : Byte) : Memory :=
  let rest : Memory := m.filter fun c => decide (c.1 ≠ a)
  if b = 0 then rest else Memory.insertCell (a, b) rest

/-- Consecutive bytes written from address a up. -/
def Memory.writeBytes : Memory → Nat → List Byte → Memory
  | m, _, [] => m
  | m, a, b :: bs => Memory.writeBytes (Memory.write m a b) (a + 1) bs

/-- The n bytes from address a up. -/
def Memory.bytes (m : Memory) (a n : Nat) : List Byte := (List.range n).map fun k => Memory.read m (a + k)

/-- `MemRead(B, a, n) = BE(B[a..a+n-1])` (00_scope.md R13). -/
def Memory.memRead (m : Memory) (a n : Nat) : Nat := beNat (Memory.bytes m a n)

/-- Word k of a buffer: byte 4k sits in bits 31:24 (20_memory.md R63, 40_host_access.md R109). -/
def Memory.word (m : Memory) (k : Nat) : Word := BitVec.ofNat 32 (Memory.memRead m (4 * k) 4)

/-- Word k of a buffer written, byte by byte as 20_memory.md R63 says. -/
def Memory.writeWord (m : Memory) (k : Nat) (w : Word) : Memory :=
  Memory.writeBytes m (4 * k) (beBytes 4 w.toNat)

/-! ### Named register updates -/

/-- A successful FOLD: `V <- v`, `VVALID <- 1` (41_fold.md R120). -/
def State.withFolded (s : State) (v : DWord) : State := { s with v := v, status := s.status.withValue }

/-- A successful WORD_ENC: `PARITY <- p`, `WIDXk <- idx[k]` (42_encoders.md R130). -/
def State.withWords (s : State) (p : BitVec 2) (idx : Vector (BitVec 11) 6) : State :=
  { s with parity := p, widx := idx }

/-- A successful HOTP_TRUNC: `SNUM <- snum` (43_hotp.md R151). -/
def State.withSnum (s : State) (n : BitVec 31) : State := { s with snum := n }

/-- A successful TOTP_CTR: `COUNTER <- c` (44_totp.md R170). -/
def State.withCounter (s : State) (c : DWord) : State := { s with counter := c }

/-! ### Completion (60_exceptions.md R184, R185) -/

/-- All 32 bytes of DOUT: the output, then 0x00 up to byte 31 (R184). -/
def outputBytes (out : List Byte) : List Byte := out ++ List.replicate (32 - out.length) 0

/-- The cells of consecutive bytes from address a up, in canonical form. -/
def Memory.ofBytes : Nat → List Byte → Memory
  | _, [] => []
  | a, b :: bs => if b = 0 then Memory.ofBytes (a + 1) bs else (a, b) :: Memory.ofBytes (a + 1) bs

/-- DOUT after a completion: bytes 0..31 are all written at one instant, the output from byte 0 up (R184, R185;
20_memory.md R67, R70). Bytes 0..31 are the whole buffer, so the kept part is empty in every buffer of 32 bytes. -/
def Memory.withOutput (m : Memory) (out : List Byte) : Memory :=
  Memory.ofBytes 0 (outputBytes out) ++ m.filter fun c => decide (32 ≤ c.1)

/-- Success completion with the output bytes `out`, after the operation's own register writes (R184):
`complete(n)` with n = the length of `out`. -/
def complete (out : List Byte) (s : State) : State :=
  { s with
    dout := s.dout.withOutput out
    doutLen := BitVec.ofNat 6 out.length
    status := s.status.succeeded }

/-- Error completion (R185): DOUT is cleared, DOUT_LEN is 0, STATUS reports the code, all else is unchanged. -/
def errorComplete (k : ErrorKind) (s : State) : State :=
  { s with
    dout := s.dout.withOutput []
    doutLen := 0
    status := s.status.failed k }

/-- `raise Error(k)` (00_scope.md R13): nothing the operation computed is written. -/
def raise (k : ErrorKind) (s : State) : Outcome := .next (errorComplete k s)

end Sys2Proof.Machine
end

