-- ==== Sys2Proof/Machine/Bus.lean ====
section
/-! DEFINITION. The host register window (10_state.md R23) and the two host accesses WR and RD
(40_host_access.md R100 to R109). -/

namespace Sys2Proof.Machine

/-- The host-visible registers (10_state.md R23). -/
inductive Reg where
  | cmd
  | status
  | hotpCfg
  | totpStep
  | totpTimeLo
  | totpTimeHi
  | totpUtcoff
  | counterLo
  | counterHi
  | snum
  | doutLen
  | parity
  | widx (k : Fin 6)
  | din (k : Fin 16)
  | dout (k : Fin 8)
  deriving DecidableEq, Repr

/-- The offset of a register in the window (10_state.md R23). -/
def Reg.offset : Reg → Nat
  | .cmd => 0x000
  | .status => 0x004
  | .hotpCfg => 0x008
  | .totpStep => 0x00C
  | .totpTimeLo => 0x010
  | .totpTimeHi => 0x014
  | .totpUtcoff => 0x018
  | .counterLo => 0x020
  | .counterHi => 0x024
  | .snum => 0x028
  | .doutLen => 0x02C
  | .parity => 0x030
  | .widx k => 0x040 + 4 * k.val
  | .din k => 0x100 + 4 * k.val
  | .dout k => 0x200 + 4 * k.val

/-- Every register of the map. -/
def allRegs : List Reg :=
  [.cmd, .status, .hotpCfg, .totpStep, .totpTimeLo, .totpTimeHi, .totpUtcoff, .counterLo, .counterHi, .snum,
    .doutLen, .parity]
    ++ (List.finRange 6).map .widx ++ (List.finRange 16).map .din ++ (List.finRange 8).map .dout

/-- The register at an offset, none where the offset is unmapped (10_state.md R23). -/
def regAtOffset (o : Nat) : Option Reg := allRegs.find? fun r => decide (r.offset = o)

/-- The bus address of a register (20_memory.md R61). -/
def Reg.addr (r : Reg) : Nat := Config.base + r.offset

/-- The register an access reaches: 32 bits wide, in the window, a multiple of 4, mapped; none is BusError
(40_host_access.md R100, R101, R107; 20_memory.md R62). -/
def accessReg (a size : Nat) : Option Reg :=
  if size = 32 ∧ Config.base ≤ a ∧ (a - Config.base) % 4 = 0 ∧ a - Config.base ≤ 0xFFF then
    regAtOffset (a - Config.base)
  else none

/-- `ResultRegs` of 40_host_access.md. -/
def Reg.isResult : Reg → Bool
  | .counterLo | .counterHi | .snum | .doutLen | .parity | .widx _ | .dout _ => true
  | .cmd | .status | .hotpCfg | .totpStep | .totpTimeLo | .totpTimeHi | .totpUtcoff | .din _ => false

/-- `RORegs` of 40_host_access.md. -/
def Reg.isReadOnly : Reg → Bool
  | .snum | .doutLen | .parity | .widx _ | .dout _ => true
  | .cmd | .status | .hotpCfg | .totpStep | .totpTimeLo | .totpTimeHi | .totpUtcoff | .counterLo | .counterHi
  | .din _ => false

/-- Bits 31:0 of a 64-bit register (10_state.md R42). -/
def lowHalf (x : DWord) : Word := x.extractLsb' 0 32

/-- Bits 63:32 of a 64-bit register (10_state.md R42). -/
def highHalf (x : DWord) : Word := x.extractLsb' 32 32

/-- A 64-bit register with its LO word written (10_state.md R42). -/
def withLow (x : DWord) (w : Word) : DWord := highHalf x ++ w

/-- A 64-bit register with its HI word written (10_state.md R42). -/
def withHigh (x : DWord) (w : Word) : DWord := w ++ lowHalf x

/-- `value(r)`: what a register holds, reserved bits 0, buffers packed as 20_memory.md R63. CMD reads 0
(40_host_access.md R102). -/
def Reg.value (r : Reg) (s : State) : Word :=
  match r with
  | .cmd => 0
  | .status => s.status.word
  | .hotpCfg => s.hotpCfg
  | .totpStep => s.totpStep
  | .totpTimeLo => lowHalf s.totpTime
  | .totpTimeHi => highHalf s.totpTime
  | .totpUtcoff => s.totpUtcoff.setWidth 32
  | .counterLo => lowHalf s.counter
  | .counterHi => highHalf s.counter
  | .snum => s.snum.setWidth 32
  | .doutLen => s.doutLen.setWidth 32
  | .parity => s.parity.setWidth 32
  | .widx k => s.widx[k].setWidth 32
  | .din k => Memory.word s.din k.val
  | .dout k => Memory.word s.dout k.val

/-- `store(r, w)` (40_host_access.md R108): only the writable bits are kept. Read-only registers, STATUS and CMD are
not stored to. -/
def Reg.store (r : Reg) (w : Word) (s : State) : State :=
  match r with
  | .hotpCfg => { s with hotpCfg := w &&& 0x0000FF1F }
  | .totpStep => { s with totpStep := w }
  | .totpTimeLo => { s with totpTime := withLow s.totpTime w }
  | .totpTimeHi => { s with totpTime := withHigh s.totpTime w }
  | .totpUtcoff => { s with totpUtcoff := w.setWidth 8 }
  | .counterLo => { s with counter := withLow s.counter w }
  | .counterHi => { s with counter := withHigh s.counter w }
  | .din k => { s with din := Memory.writeWord s.din k.val w }
  | .cmd | .status | .snum | .doutLen | .parity | .widx _ | .dout _ => s

/-- `issue(w)` (40_host_access.md R104). -/
def issue (w : Word) (s : State) : State := { s with cur := w, status := s.status.issued }

/-- A dropped write (40_host_access.md R103). -/
def dropWrite (s : State) : State := { s with status := s.status.overrun }

/-- A host write that reaches register r (40_host_access.md R100, the cases in its order). -/
def writeReg (r : Reg) (w : Word) (s : State) : State :=
  if r = .status then { s with status := s.status.written w }
  else if r.isReadOnly then s
  else if s.status.busy then dropWrite s
  else if r = .cmd then issue w s
  else r.store w s

/-- The word a host read of register r returns (40_host_access.md R101): the free word `draw32()` for a result register
while BUSY = 1 (R106), else the value. -/
def readReg (r : Reg) (s : State) : Word :=
  if s.status.busy && r.isResult then Config.draw32 s.draws else r.value s

/-- The state after a host read of register r: unchanged (20_memory.md R66), but that a free word drawn is counted
(the model's own field, log 3). -/
def afterRead (r : Reg) (s : State) : State :=
  if s.status.busy && r.isResult then { s with draws := s.draws + 1 } else s

/-- A host access at the device: the response and OTPPD's state after it (40_host_access.md R100, R101, R107). A refused
access changes nothing. -/
def busAccess (acc : Access) (s : State) : BusResponse × State :=
  match acc with
  | .write a size w =>
    match accessReg a size with
    | none => (.busError, s)
    | some r => (.written, writeReg r w s)
  | .read a size =>
    match accessReg a size with
    | none => (.busError, s)
    | some r => (.data (readReg r s), afterRead r s)

end Sys2Proof.Machine
end

