-- ==== Sys2Proof/Machine/Operands.lean ====
section
/-! DEFINITION. Every numeric operand of a command, decoded from its register as 30_encoding.md R89 says, the DIN
bytes a command reads, and the ASCII characters of its output. -/

namespace Sys2Proof.Machine

/-- d, the code length: `zext_4(HOTP_CFG[3:0])`. -/
def State.digits (s : State) : Nat := (s.hotpCfg.extractLsb' 0 4).toNat

/-- chk: HOTP_CFG[4]. -/
def State.chk (s : State) : Bool := s.hotpCfg.getLsbD 4

/-- t, the truncation offset: `sext_8(HOTP_CFG[15:8])`. -/
def State.toff (s : State) : Int := (s.hotpCfg.extractLsb' 8 8).toInt

/-- STEP: `zext_32(TOTP_STEP)`. -/
def State.stepSeconds (s : State) : Nat := s.totpStep.toNat

/-- TIME: `sext_64(TOTP_TIME)`. -/
def State.time (s : State) : Int := s.totpTime.toInt

/-- h, the UTC offset in hours: `sext_8(TOTP_UTCOFF)`. -/
def State.utcHours (s : State) : Int := s.totpUtcoff.toInt

/-- The effective time `e = TIME - 3600*h`, an exact integer (44_totp.md R171). -/
def State.effectiveTime (s : State) : Int := s.time - 3600 * s.utcHours

/-- The eight big-endian bytes of a 64-bit value: the HOTP message of COUNTER (43_hotp.md R150). -/
def dwordBytes (x : DWord) : List Byte := beBytes 8 x.toNat

/-- ASCII of a decimal digit, `0x30 + n` (43_hotp.md R153). -/
def digitChar (n : Nat) : Byte := BitVec.ofNat 8 (0x30 + n)

/-- `hexchar(n)`, lowercase (42_encoders.md R135). -/
def hexChar (n : Nat) : Byte := if n ≤ 9 then BitVec.ofNat 8 (0x30 + n) else BitVec.ofNat 8 (0x61 + (n - 10))

/-- ASCII of an uppercase letter, 0x41..0x5A (42_encoders.md R133). -/
def letterChar (l : Letter) : Byte := BitVec.ofNat 8 (0x41 + l.val)

/-- The characters of a dictionary word (42_encoders.md R133). -/
def wordChars : DictWord → List Byte
  | .one a => [letterChar a]
  | .two a b => [letterChar a, letterChar b]
  | .three a b c => [letterChar a, letterChar b, letterChar c]
  | .four a b c d => [letterChar a, letterChar b, letterChar c, letterChar d]

end Sys2Proof.Machine
end

