-- ==== Sys2Proof/Machine/Encoders.lean ====
section
/-! DEFINITION. The word encoder and the hex encoder: WORD_ENC and HEX_ENC (42_encoders.md R130 to R136). -/

namespace Sys2Proof.Machine

/-- The 2-bit group i of V, bits 2i+1:2i, as a number (R131). -/
def bitPair (v : DWord) (i : Nat) : Nat := (v.extractLsb' (2 * i) 2).toNat

/-- `parity2(V)`: the sum of the 32 groups, modulo 4 (R131). -/
def parity2 (v : DWord) : BitVec 2 := BitVec.ofNat 2 (((List.range 32).map (bitPair v)).sum % 4)

/-- `idx[k] = s[65-11k : 55-11k]` of the 66-bit stream `s = V << 2 | p` (R132). -/
def wordIndex (v : DWord) (p : BitVec 2) (k : Nat) : BitVec 11 := (v ++ p).extractLsb' (55 - 11 * k) 11

/-- The six dictionary indices (R132). -/
def wordIndices (v : DWord) (p : BitVec 2) : Vector (BitVec 11) 6 :=
  #v[wordIndex v p 0, wordIndex v p 1, wordIndex v p 2, wordIndex v p 3, wordIndex v p 4, wordIndex v p 5]

/-- The separator, one ASCII space (R134). -/
def space : List Byte := [0x20]

/-- The dictionary word of an index, as characters (R134). -/
def dictChars (i : BitVec 11) : List Byte := wordChars (Config.dict i)

/-- The six words in index order, single spaces between them (R134). -/
def wordText (idx : Vector (BitVec 11) 6) : List Byte :=
  dictChars idx[0] ++ space ++ dictChars idx[1] ++ space ++ dictChars idx[2] ++ space
    ++ dictChars idx[3] ++ space ++ dictChars idx[4] ++ space ++ dictChars idx[5]

/-- WORD_ENC (R130). -/
def execWordEnc (s : State) : Outcome :=
  if s.status.vvalid = false then raise .noValue s
  else
    let p := parity2 s.v
    let idx := wordIndices s.v p
    .next (complete (wordText idx) (s.withWords p idx))

/-- Byte j of V, big-endian: `V[63-8j : 56-8j]` (R136). -/
def valueByte (v : DWord) (j : Nat) : Byte := v.extractLsb' (56 - 8 * j) 8

/-- The two characters of a byte, high nibble first (R136). -/
def hexPair (b : Byte) : List Byte := [hexChar (b.toNat / 16), hexChar (b.toNat % 16)]

/-- The 16 characters of V (R136). -/
def hexText (v : DWord) : List Byte := (List.range 8).flatMap fun j => hexPair (valueByte v j)

/-- HEX_ENC (R136). -/
def execHexEnc (s : State) : Outcome :=
  if s.status.vvalid = false then raise .noValue s
  else .next (complete (hexText s.v) s)

end Sys2Proof.Machine
end

