-- ==== Sys2Proof/Machine/Fold.lean ====
section
/-! DEFINITION. The digest folder: FOLD (41_fold.md R120, R121). -/

namespace Sys2Proof.Machine

/-- `fold128`: byte j of the result is `D[j] xor D[j+8]` (R121). -/
def fold128 (d : Nat → Byte) : DWord :=
  BitVec.ofNat 64 (beNat ((List.range 8).map fun j => d j ^^^ d (j + 8)))

/-- The 16-byte intermediate of `fold160`: bytes 16..19 go into bytes 0..3 (R121). -/
def foldTail (d : Nat → Byte) : Nat → Byte := fun j => if j < 4 then d j ^^^ d (16 + j) else d j

/-- `fold160` (R121; spec/90_conflicts.md C1: no byte swap). -/
def fold160 (d : Nat → Byte) : DWord := fold128 (foldTail d)

/-- The folded value of the digest in DIN, or the error of R120. -/
def foldDigest (alg : Alg) (din : Memory) : Except ErrorKind DWord :=
  match alg with
  | .reserved _ => .error .unsupportedAlgorithm
  | .sha256 | .sha512 => .error .unsupportedDigestWidth
  | .md4 | .md5 => .ok (fold128 din.read)
  | .sha1 => .ok (fold160 din.read)

/-- FOLD (R120). -/
def execFold (alg : Alg) (s : State) : Outcome :=
  match foldDigest alg s.din with
  | .error k => raise k s
  | .ok v => .next (complete [] (s.withFolded v))

end Sys2Proof.Machine
end

