-- ==== Sys2Proof/Machine/Hotp.lean ====
section
/-! DEFINITION. The HOTP unit: CTR_MSG and HOTP_TRUNC (43_hotp.md R150 to R156). -/

namespace Sys2Proof.Machine

/-- CTR_MSG: DOUT[j] is COUNTER[63-8j : 56-8j] (R150). -/
def execCtrMsg (s : State) : Outcome := .next (complete (dwordBytes s.counter) s)

/-- `maclen(alg)`, for the algorithms HOTP_TRUNC takes (R155). -/
def macLen : Alg → Option Nat
  | .sha1 => some 20
  | .sha256 => some 32
  | .sha512 => some 64
  | .md4 | .md5 | .reserved _ => none

/-- `select_offset(t, L)`: dynamic, fixed, or none for InvalidOffset (R152). -/
def selectOffset (t : Int) (len : Nat) (din : Memory) : Option Nat :=
  if t = -1 then some (din.read (len - 1) &&& 0x0F).toNat
  else if 0 ≤ t ∧ t ≤ 15 ∧ t + 4 ≤ len then some t.toNat
  else none

/-- `snum = MemRead(DIN, off, 4) & 0x7FFFFFFF` (R152). -/
def truncated (din : Memory) (off : Nat) : Nat := Memory.memRead din off 4 &&& 0x7FFFFFFF

/-- The d-digit decimal text of r, most-significant digit first, zero-padded (R153). -/
def decimalText (r d : Nat) : List Byte := (List.range d).map fun i => digitChar (r / 10 ^ (d - 1 - i) % 10)

/-- What digit x at position i (0 is the rightmost) adds to the total: doubled at even positions, less 9 where
that passes 9 (R154). -/
def luhnTerm (i x : Nat) : Nat :=
  if i % 2 = 0 then (if 2 * x > 9 then 2 * x - 9 else 2 * x) else x

/-- The total over the d digit positions of r (R154). -/
def luhnTotal (r d : Nat) : Nat := ((List.range d).map fun i => luhnTerm i (r / 10 ^ i % 10)).sum

/-- `luhn(r, d)`: the check digit (R154). -/
def luhn (r d : Nat) : Nat := (10 - luhnTotal r d % 10) % 10

/-- The code of the truncated value: d digits of `snum mod 10^d`, then the check digit if chk (R151). -/
def hotpText (snum d : Nat) (chk : Bool) : List Byte :=
  let r := snum % 10 ^ d
  decimalText r d ++ (if chk then [digitChar (luhn r d)] else [])

/-- HOTP_TRUNC (R151), its checks in the order of 60_exceptions.md R182. -/
def execHotpTrunc (alg : Alg) (s : State) : Outcome :=
  match macLen alg with
  | none => raise .unsupportedAlgorithm s
  | some len =>
    if s.digits < 6 ∨ 10 < s.digits then raise .invalidParameter s
    else
      match selectOffset s.toff len s.din with
      | none => raise .invalidOffset s
      | some off =>
        let snum := truncated s.din off
        .next (complete (hotpText snum s.digits s.chk) (s.withSnum (BitVec.ofNat 31 snum)))

end Sys2Proof.Machine
end

