-- ==== Sys2Proof/Machine/Totp.lean ====
section
/-! DEFINITION. The TOTP unit: TOTP_CTR (44_totp.md R170 to R173). -/

namespace Sys2Proof.Machine

/-- `c = e div STEP`, the floor (R172; 00_scope.md R12): with STEP > 0, integer division rounds down. -/
def timeCounter (e : Int) (step : Nat) : Int := e / step

/-- TOTP_CTR (R170), its checks in the order of 60_exceptions.md R182. -/
def execTotpCtr (s : State) : Outcome :=
  if s.stepSeconds = 0 then raise .invalidParameter s
  else if s.effectiveTime < 0 then raise .invalidTimeInput s
  else
    let c : DWord := BitVec.ofInt 64 (timeCounter s.effectiveTime s.stepSeconds)
    .next (complete (dwordBytes c) (s.withCounter c))

end Sys2Proof.Machine
end

