-- ==== Sys2Proof/Machine/Dispatch.lean ====
section
/-! DEFINITION. What each command does at its completion step (60_exceptions.md R184): one arm per constructor. -/

namespace Sys2Proof.Machine

def exec (i : Instr) (s : State) : Host.Outcome State Fault Refusal :=
  match i with
  | .fold alg => Sys2Proof.Machine.execFold alg s
  | .wordEnc => Sys2Proof.Machine.execWordEnc s
  | .hexEnc => Sys2Proof.Machine.execHexEnc s
  | .ctrMsg => Sys2Proof.Machine.execCtrMsg s
  | .hotpTrunc alg => Sys2Proof.Machine.execHotpTrunc alg s
  | .totpCtr => Sys2Proof.Machine.execTotpCtr s

end Sys2Proof.Machine
end

