-- ==== Sys2Proof/Machine/Agents.lean ====
section
/-! DEFINITION. The turns of the Host, the Block and Reset (00_scope.md R14), and which of them moves next: the head of
the agenda, so that every interleaving is some agenda (20_memory.md R69; log 5). -/

namespace Sys2Proof.Machine

/-- The Block's completion step on a command in flight: decode CUR and run the command's rule; an illegal word is
`raise Error(IllegalCommand)` (60_exceptions.md R184, 30_encoding.md R85, R86). -/
def completeCurrent (s : State) : Outcome :=
  match decode s.cur with
  | .ok i => exec i s
  | .error _ => raise .illegalCommand s

/-- The Block's turn: enabled exactly when BUSY = 1 (60_exceptions.md R184); a turn it cannot take changes nothing
(log 7). -/
def blockTurn (s : State) : Outcome := if s.status.busy then completeCurrent s else .next s

/-- The Host's turn: the access at the device, its response kept in `bus`; a BusError is a fault of this host step
(40_host_access.md R107; log 4). -/
def hostTurn (acc : Access) (s : State) : Outcome :=
  match busAccess acc s with
  | (.busError, _) => .fault (.busError acc)
  | (resp, s') => .next { s' with bus := resp }

/-- Reset, at any time and whatever is in flight (70_reset_and_hazards.md R200 to R202). The turns ahead and the count of
free words are the model's own and go on (log 12). -/
def resetTurn (s : State) : State := { State.reset with agenda := s.agenda, draws := s.draws }

/-- One turn. -/
def runTurn (t : Turn) (s : State) : Outcome :=
  match t with
  | .host acc => hostTurn acc s
  | .block => blockTurn s
  | .reset => .next (resetTurn s)

/-- The next turn: the head of the agenda; past its end the Block's, which is always taken in the end (weak fairness,
70_reset_and_hazards.md R212; log 6). -/
def nextTurn (s : State) : Outcome :=
  match s.agenda with
  | [] => blockTurn s
  | t :: rest => runTurn t { s with agenda := rest }

/-- A command word placed so that the next step completes it: issued (40_host_access.md R104), the Block to move. -/
def placeCommand (w : Word) (s : State) : State := { issue w s with agenda := .block :: s.agenda }

end Sys2Proof.Machine
end

