-- ==== Sys2Proof/Machine/Step.lean ====
section
/-! DEFINITION. One step of OTPPD and its surroundings: the next turn of the total order in which the Host, the Block and
Reset interleave (20_memory.md R69). -/

namespace Sys2Proof.Machine

/-- One step: the next turn (log 5, log 6). -/
def step (s : State) : Host.Outcome State Fault Refusal := nextTurn s

/-- s with the command word of an opcode-table row in flight and the Block to move, so that the next step decodes and
runs exactly it: it stands for the host's write of w to CMD (40_host_access.md R104; log 5). -/
def State.withFetchWord (s : State) (nbits w : Nat) : State := placeCommand (BitVec.ofNat 32 (w % 2 ^ nbits)) s

end Sys2Proof.Machine
end

