-- ==== Sys2Proof/Machine/HostProgram.lean ====
section
/-! DEFINITION. The host-program statements of 30_encoding.md R91 and R92, each as the turns it stands for. -/

namespace Sys2Proof.Machine

/-- `WR <reg>, <imm32>` (R91). -/
def wr (r : Reg) (w : Word) : Turn := .host (.write r.addr 32 w)

/-- `RD <reg>` (R91). -/
def rd (r : Reg) : Turn := .host (.read r.addr 32)

/-- `<command>`: `WR CMD, <word of the command>` (R91, R92). -/
def command (i : Instr) : List Turn := [wr .cmd (encode i)]

/-- `WAIT` (R92): STATUS is read until BUSY = 0. The Block's completion falls after `polls` reads that saw BUSY = 1; the
last read sees BUSY = 0. Every interleaving of the loop with the completion is some `polls` (log 18). -/
def waitTurns (polls : Nat) : List Turn := List.replicate polls (rd .status) ++ [.block, rd .status]

/-- `EXEC <command>` (R92). -/
def execTurns (i : Instr) (polls : Nat) : List Turn := command i ++ waitTurns polls

/-- `WR64 TOTP_TIME, <imm64>` (R92): a negative value is taken modulo 2^64. -/
def wr64Time (x : Int) : List Turn :=
  [wr .totpTimeLo (lowHalf (BitVec.ofInt 64 x)), wr .totpTimeHi (highHalf (BitVec.ofInt 64 x))]

/-- `WR64 COUNTER, <imm64>` (R92). -/
def wr64Counter (x : Int) : List Turn :=
  [wr .counterLo (lowHalf (BitVec.ofInt 64 x)), wr .counterHi (highHalf (BitVec.ofInt 64 x))]

/-- Word k of a byte list, missing bytes 0 (R92). -/
def inputWord (bs : List Byte) (k : Nat) : Word :=
  BitVec.ofNat 32 (beNat ((List.range 4).map fun j => bs.getD (4 * k + j) 0))

/-- `LOADIN <b0 ... b(n-1)>`, n at most 64: DIN words 0..ceil(n/4)-1 (R92). -/
def loadIn (bs : List Byte) : List Turn :=
  (List.range ((bs.length + 3) / 4)).map fun k => wr (.din (Fin.ofNat 16 k)) (inputWord bs k)

/-- `READOUT` (R92): DOUT_LEN, then DOUT words 0..ceil(len/4)-1, where len is what the first read returned (log 18). -/
def readOut (len : Nat) : List Turn :=
  rd .doutLen :: (List.range ((len + 3) / 4)).map fun k => rd (.dout (Fin.ofNat 8 k))

/-- `CLROVR`: `WR STATUS, 0x00000100` (R92). -/
def clrOvr : List Turn := [wr .status 0x00000100]

end Sys2Proof.Machine
end

