-- ==== Sys2Proof/Safety.lean ====
section
/-! DEFINITION. What claims speak of: the invariant of OTPPD's state, which host accesses are accepted, and the injectivity
of DICT. -/

namespace Sys2Proof

/-- DICT is injective (42_encoders.md R133 (b)). It holds of `Config.dict` by construction (log 8):
`Config.dict_injective`. -/
def Config.DictInjective : Prop := ∀ i j, Config.dict i = Config.dict j → i = j

namespace Machine

/-- The ECODE values OTPPD produces: 0 and 4 to 10 (60_exceptions.md R180; I17). -/
def producedCode (c : BitVec 4) : Prop := c = 0 ∨ (4 ≤ c.toNat ∧ c.toNat ≤ 10)

/-- The legal states of STATUS (10_state.md R25), with an ECODE that OTPPD produces. -/
structure Status.Legal (st : Status) : Prop where
  busy_clears : st.busy = true → st.done = false ∧ st.err = false ∧ st.ecode = 0
  err_iff_code : st.err = true ↔ st.ecode ≠ 0
  undone_clears : st.done = false → st.err = false
  code_produced : producedCode st.ecode

/-- A buffer of n bytes, in canonical form and with no byte outside. -/
structure Memory.Buffer (m : Memory) (n : Nat) : Prop where
  canonical : m.wf
  inside : m.below n

/-- The invariant: STATUS is legal (R25); reserved bits of HOTP_CFG read 0 (R41); the buffers are canonical and of their
size (R33, R34); DOUT holds DOUT_LEN bytes of output and 0x00 from there up (R32, R34); and while ERR = 1 there is no
output at all (R185). -/
structure State.Inv (s : State) : Prop where
  status_legal : s.status.Legal
  cfg_reserved : s.hotpCfg &&& 0x0000FF1F = s.hotpCfg
  din_buffer : Memory.Buffer s.din 64
  dout_buffer : Memory.Buffer s.dout 32
  len_le : s.doutLen.toNat ≤ 32
  dout_tail : ∀ a, s.doutLen.toNat ≤ a → s.dout.read a = 0
  error_no_output : s.status.err = true → s.doutLen = 0

/-- The bus accepts the access (20_memory.md R62): a host step that makes it does not fault. -/
def Access.accepted : Access → Prop
  | .write a size _ => (accessReg a size).isSome
  | .read a size => (accessReg a size).isSome

/-- A turn that can neither fault nor reset the machine. -/
def Turn.quiet : Turn → Prop
  | .host acc => acc.accepted
  | .block => True
  | .reset => False

/-- A safe run of k steps from s: it ends in a next state, no host access on the way was refused. -/
def SafeRun (k : Nat) (s : State) : Prop := ∃ t, core.run k s = .next t

end Machine

end Sys2Proof
end

