-- ==== Sys2Proof/Certificates/Slice0/Obligations.lean ====
section
/-! DEFINITION. The statements for the provers, from the numbered rules of spec/. They say each effect in the spec's own
formulas over register values and buffer bytes, not in the meanings' own functions. -/

namespace Sys2Proof.Claims

open Sys2Proof.Machine

/-! ### Words that several statements use -/

/-- What no command writes on any path: the configuration registers, every byte of DIN, CUR, OVR, and the model's own
fields. -/
structure InputsKept (s t : State) : Prop where
  hotpCfg : t.hotpCfg = s.hotpCfg
  totpStep : t.totpStep = s.totpStep
  totpTime : t.totpTime = s.totpTime
  totpUtcoff : t.totpUtcoff = s.totpUtcoff
  din : ∀ a, t.din.read a = s.din.read a
  cur : t.cur = s.cur
  ovr : t.status.ovr = s.status.ovr
  agenda : t.agenda = s.agenda
  bus : t.bus = s.bus
  draws : t.draws = s.draws

/-- V and VVALID keep their values. -/
def ValueKept (s t : State) : Prop := t.v = s.v ∧ t.status.vvalid = s.status.vvalid

/-- PARITY and WIDX0..WIDX5 keep their values. -/
def WordsKept (s t : State) : Prop := t.parity = s.parity ∧ t.widx = s.widx

/-- STATUS after a success completion (60_exceptions.md R184). -/
def Succeeded (t : State) : Prop :=
  t.status.busy = false ∧ t.status.done = true ∧ t.status.err = false ∧ t.status.ecode = 0

/-- DOUT and DOUT_LEN after a completion with the output `out`: bytes 0..31 are written, bytes past `out` are 0x00, and
no other address of the buffer changes (60_exceptions.md R184). -/
def Output (s t : State) (out : List Byte) : Prop :=
  t.doutLen.toNat = out.length ∧ (∀ a, a < 32 → t.dout.read a = out.getD a 0) ∧
    ∀ a, 32 ≤ a → t.dout.read a = s.dout.read a

/-- Error completion with ECODE c, every effect of 60_exceptions.md R185 and nothing else. -/
def ErrorCompleted (c : Nat) (s t : State) : Prop :=
  t.status.busy = false ∧ t.status.done = true ∧ t.status.err = true ∧ t.status.ecode.toNat = c ∧
    Output s t [] ∧ InputsKept s t ∧ ValueKept s t ∧ WordsKept s t ∧ t.counter = s.counter ∧ t.snum = s.snum

/-- Every host-visible element at the value of 70_reset_and_hazards.md R201. V and CUR may hold any value there. -/
def AtResetValues (t : State) : Prop :=
  t.status.busy = false ∧ t.status.done = false ∧ t.status.err = false ∧ t.status.vvalid = false ∧
    t.status.ecode = 0 ∧ t.status.ovr = false ∧ Reg.value .status t = 0x00000000 ∧ Reg.value .cmd t = 0x00000000 ∧
    t.hotpCfg = 0x0000FF06 ∧ t.digits = 6 ∧ t.chk = false ∧ t.toff = -1 ∧
    t.totpStep = 30 ∧ t.totpTime = 0 ∧ t.totpUtcoff = 0 ∧ t.counter = 0 ∧ t.snum = 0 ∧ t.doutLen = 0 ∧
    t.parity = 0 ∧ (∀ k : Fin 6, t.widx[k] = 0) ∧ (∀ a, t.din.read a = 0) ∧ ∀ a, t.dout.read a = 0

/-- DIN or DOUT word n in 32-bit big-endian form, byte 4n the most significant (41_fold.md R121, 20_memory.md R63). -/
def bufferWord (m : Memory) (n : Nat) : Word :=
  m.read (4 * n) ++ m.read (4 * n + 1) ++ m.read (4 * n + 2) ++ m.read (4 * n + 3)

/-- Byte j of a 64-bit value, big-endian: bits 63-8j : 56-8j. -/
def bigEndianByte (x : DWord) (j : Nat) : Byte := x.extractLsb' (56 - 8 * j) 8

/-- The sum of the 2-bit groups of a 64-bit number, modulo 4 (42_encoders.md R131). -/
def groupSum (n : Nat) : Nat := (∑ i ∈ Finset.range 32, n / 4 ^ i % 4) % 4

/-- The text of six dictionary indices (42_encoders.md R134). -/
def sixWords (idx : Vector (BitVec 11) 6) : List Byte :=
  List.intercalate [0x20] ((List.finRange 6).map fun k => wordChars (Config.dict idx[k]))

/-- The value of a hex character (42_encoders.md R135). -/
def hexValue (c : Byte) : Nat := if c.toNat < 0x3A then c.toNat - 0x30 else c.toNat - 0x61 + 10

/-- The check digit of 43_hotp.md R154, with the doubling written as its table [0,2,4,6,8,1,3,5,7,9]. -/
def checkDigit (r d : Nat) : Nat :=
  (10 - (∑ i ∈ Finset.range d,
    if i % 2 = 0 then [0, 2, 4, 6, 8, 1, 3, 5, 7, 9].getD (r / 10 ^ i % 10) 0 else r / 10 ^ i % 10) % 10) % 10

/-- The bits of an illegal command word (30_encoding.md R86). -/
def IllegalBits (w : Word) : Prop :=
  w.toNat / 128 ≠ 0 ∨ w.toNat % 16 = 0 ∨ 7 ≤ w.toNat % 16 ∨
    ((w.toNat % 16 = 2 ∨ w.toNat % 16 = 3 ∨ w.toNat % 16 = 4 ∨ w.toNat % 16 = 6) ∧ w.toNat / 16 % 8 ≠ 0)

/-- DIGITS and TOFF as numbers 0..15 and 0..255 (10_state.md R26); TOFF = 255 is -1. -/
def digitsField (s : State) : Nat := s.hotpCfg.toNat % 16

/-- TOFF, HOTP_CFG bits 15:8, as a number 0..255. -/
def toffField (s : State) : Nat := s.hotpCfg.toNat / 256 % 256

/-- The errors of 60_exceptions.md R180 with their codes. -/
def errorTable : List (ErrorKind × Nat) :=
  [(.invalidPassPhraseLength, 1), (.invalidSeed, 2), (.invalidChallengeFormat, 3), (.unsupportedAlgorithm, 4),
    (.invalidOffset, 5), (.invalidTimeInput, 6), (.unsupportedDigestWidth, 7), (.illegalCommand, 8), (.noValue, 9),
    (.invalidParameter, 10)]

/-- The error a command reports, by the check order of 60_exceptions.md R182; 0 is success. The sign of the UTC offset is
44_totp.md R171's own reading (D26, log 20). -/
def expectedCode (i : Instr) (s : State) : Nat :=
  match i with
  | .fold alg =>
    if 5 ≤ alg.code.toNat then 4 else if alg.code.toNat = 3 ∨ alg.code.toNat = 4 then 7 else 0
  | .wordEnc => if s.status.vvalid then 0 else 9
  | .hexEnc => if s.status.vvalid then 0 else 9
  | .ctrMsg => 0
  | .hotpTrunc alg =>
    if alg.code.toNat < 2 ∨ 4 < alg.code.toNat then 4
    else if digitsField s < 6 ∨ 10 < digitsField s then 10
    else if 15 < toffField s ∧ toffField s ≠ 255 then 5 else 0
  | .totpCtr =>
    if s.totpStep = 0 then 10
    else if s.totpTime.toInt < 3600 * s.totpUtcoff.toInt then 6 else 0

/-- The error that the command in CUR reports, 8 for an illegal word (60_exceptions.md R182); 0 is success. -/
def completionCode (s : State) : Nat :=
  match decode s.cur with
  | .error _ => 8
  | .ok i => expectedCode i s

/-- The output length of a successful command (60_exceptions.md R184). WORD_ENC's bounds rest on the word lengths of
42_encoders.md R133 (a), which the spec marks as from general knowledge (log 8, log 20). -/
def LengthOf (i : Instr) (s : State) (n : Nat) : Prop :=
  match i with
  | .fold _ => n = 0
  | .wordEnc => 11 ≤ n ∧ n ≤ 29
  | .hexEnc => n = 16
  | .ctrMsg => n = 8
  | .hotpTrunc _ => n = if s.hotpCfg.getLsbD 4 then digitsField s + 1 else digitsField s
  | .totpCtr => n = 8

/-- The host's next turn is `WR r, w`; after that step the machine is t, with the agenda moved on and the write accepted. -/
def AfterWrite (s : State) (r : Reg) (w : Word) (t : State) : Prop :=
  ∀ rest, step { s with agenda := wr r w :: rest } = .next { t with agenda := rest, bus := .written }

/-- The host's next turn is `RD r`; that step returns x and changes nothing of OTPPD. -/
def AfterRead (s : State) (r : Reg) (x : Word) : Prop :=
  ∀ rest, step { s with agenda := rd r :: rest } = .next { s with agenda := rest, bus := .data x }

/-- The offsets that 10_state.md R23 maps: all but its gaps 0x01C, 0x034-0x03C, 0x058-0x0FC, 0x140-0x1FC, 0x220-0xFFC. -/
def mappedOffset (o : Nat) : Prop :=
  o % 4 = 0 ∧ (o ≤ 0x018 ∨ (0x020 ≤ o ∧ o ≤ 0x030) ∨ (0x040 ≤ o ∧ o ≤ 0x054) ∨ (0x100 ≤ o ∧ o ≤ 0x13C) ∨
    (0x200 ≤ o ∧ o ≤ 0x21C))

/-- The Block's turn is next and it is enabled (60_exceptions.md R184; at the end of the agenda: log 6). -/
def BlockMoves (s : State) : Prop :=
  s.status.busy = true ∧ (s.agenda = [] ∨ s.agenda.head? = some .block)

/-- The next turn is the host's write of w to CMD while BUSY = 0 (40_host_access.md R104). -/
def Issues (s : State) (w : Word) : Prop :=
  s.status.busy = false ∧ s.agenda.head? = some (wr .cmd w)

/-- The next turn is a reset. -/
def Resets (s : State) : Prop := s.agenda.head? = some .reset

end Sys2Proof.Claims

open Sys2Proof Sys2Proof.Machine Sys2Proof.Claims

/-! ### Reset -/

/-- R201: the values after reset, but V and CUR, to which the rule gives none. -/
def Obligations.ResetValues : Prop := AtResetValues State.reset

/-- R200, R202: reset is one step from any state, in flight or not, to the values of R201. The turns ahead and the
count of free words are the model's own (log 12). -/
def Obligations.ResetFromAnyState : Prop :=
  ∀ (s : State) (rest : List Turn), s.agenda = .reset :: rest →
    ∃ t, step s = .next t ∧ AtResetValues t ∧ t.agenda = rest ∧ t.draws = s.draws

/-- The invariant holds after reset. -/
def Obligations.ResetMeetsInvariant : Prop := State.reset.Inv

/-- R25, R32 to R34, R41, R185: the invariant is kept by every step, from every state that meets it. -/
def Obligations.StepKeepsInvariant : Prop :=
  ∀ s t : State, s.Inv → step s = .next t → t.Inv

/-! ### Decoding -/

/-- R80 to R85: decoding the word of a command gives the command back, with every ALG value. -/
def Obligations.DecodeOfEncode : Prop := ∀ i : Instr, i.WellFormed → decode (encode i) = .ok i

/-- R84, R85: a word decodes to a command only if it is that command's word. -/
def Obligations.DecodedWordIsEncoding : Prop :=
  ∀ (w : Word) (i : Instr), decode w = .ok i → i.WellFormed ∧ encode i = w

/-- R86: which words are illegal, how an illegal word is issued, and how it completes. -/
def Obligations.IllegalWordsCompleteWithError : Prop :=
  (∀ w : Word, (∃ e, decode w = .error e) ↔ IllegalBits w) ∧
  (∀ (s : State) (w : Word), IllegalBits w → s.status.busy = false →
    AfterWrite s .cmd w { s with
      cur := w, status := { s.status with busy := true, done := false, err := false, ecode := 0 } }) ∧
  ∀ (s : State) (rest : List Turn), IllegalBits s.cur → s.status.busy = true → s.agenda = .block :: rest →
    ∃ t, step s = .next t ∧ ErrorCompleted 8 { s with agenda := rest } t

/-- R84: words of its table and the commands they stand for. -/
def Obligations.TableWordsDecode : Prop :=
  decode 0x00000001 = .ok (.fold .md4) ∧ decode 0x00000011 = .ok (.fold .md5) ∧
    decode 0x00000021 = .ok (.fold .sha1) ∧ decode 0x00000002 = .ok .wordEnc ∧ decode 0x00000003 = .ok .hexEnc ∧
    decode 0x00000004 = .ok .ctrMsg ∧ decode 0x00000025 = .ok (.hotpTrunc .sha1) ∧
    decode 0x00000035 = .ok (.hotpTrunc .sha256) ∧ decode 0x00000045 = .ok (.hotpTrunc .sha512) ∧
    decode 0x00000006 = .ok .totpCtr

/-! ### The step -/

/-- R184: the Block's step runs the command that CUR decodes to. At the end of the agenda the Block moves too (log 6). -/
def Obligations.StepRunsDecodedCommand : Prop :=
  ∀ (s : State) (i : Instr), s.status.busy = true → decode s.cur = .ok i →
    (∀ rest, s.agenda = .block :: rest → step s = exec i { s with agenda := rest }) ∧
    (s.agenda = [] → step s = exec i s)

/-- R104, R184: a placed command word runs next, on the state that its issue leaves. -/
def Obligations.PlacedWordRunsNext : Prop :=
  ∀ (s : State) (i : Instr), i.WellFormed →
    step (s.withFetchWord 32 (encode i).toNat) = exec i { s with
      cur := encode i, status := { s.status with busy := true, done := false, err := false, ecode := 0 } }

/-- R184: the Block's step is not enabled while BUSY = 0; such a turn, or no turn at all, changes nothing but the
agenda (log 6, log 7: the model's choice). -/
def Obligations.IdleBlockTurnChangesNothing : Prop :=
  ∀ s : State, s.status.busy = false →
    (∀ rest, s.agenda = .block :: rest → step s = .next { s with agenda := rest }) ∧
    (s.agenda = [] → step s = .next s)

/-! ### Completion and errors -/

/-- R184, R185: every command answers a next state that has completed, with an ECODE OTPPD produces. -/
def Obligations.EveryCommandCompletes : Prop :=
  ∀ (i : Instr) (s : State), ∃ t, exec i s = .next t ∧ t.status.busy = false ∧ t.status.done = true ∧
    (t.status.err = true ↔ t.status.ecode ≠ 0) ∧
    (t.status.ecode.toNat = 0 ∨ t.status.ecode.toNat ∈ [4, 5, 6, 7, 9, 10])

/-- R185, R180: raising an error completes with its code and with every effect of R185 and no other; and whenever the
command in CUR reports an error, its completion is that, with that error's code. Which error is reported takes the sign of
the UTC offset from R171's own reading (log 20). -/
def Obligations.ErrorDiscardsEveryWrite : Prop :=
  (∀ (k : ErrorKind) (c : Nat) (s : State), (k, c) ∈ errorTable → ∃ t, raise k s = .next t ∧ ErrorCompleted c s t) ∧
  ∀ s : State, completionCode s ≠ 0 → ∃ t, completeCurrent s = .next t ∧ ErrorCompleted (completionCode s) s t

/-- R184: a success completion, its STATUS, its output length and the 0x00 bytes past it. The length bounds of WORD_ENC
rest on R133 (a)'s word lengths, from general knowledge by the spec's own mark (log 8, log 20). -/
def Obligations.SuccessFillsOutput : Prop :=
  ∀ (s t : State), completeCurrent s = .next t → t.status.err = false →
    Succeeded t ∧ (∀ a, t.doutLen.toNat ≤ a → a < 32 → t.dout.read a = 0) ∧
    ∃ i, decode s.cur = .ok i ∧ LengthOf i s t.doutLen.toNat

/-- R182: which error is reported when several apply. The sign of the UTC offset in TOTP_CTR's last check is R171's own
reading (log 20). -/
def Obligations.ErrorPriority : Prop :=
  ∀ s t : State, completeCurrent s = .next t → t.status.ecode.toNat = completionCode s

/-- R84: what a command leaves unchanged, on success and on error. -/
def Obligations.CommandFrame : Prop :=
  ∀ (i : Instr) (s t : State), exec i s = .next t →
    InputsKept s t ∧ (∀ a, 32 ≤ a → t.dout.read a = s.dout.read a) ∧
    ((∀ alg, i ≠ .fold alg) → ValueKept s t) ∧ (i ≠ .wordEnc → WordsKept s t) ∧
    ((∀ alg, i ≠ .hotpTrunc alg) → t.snum = s.snum) ∧ (i ≠ .totpCtr → t.counter = s.counter)

/-- 95_test_vectors.md T-S8: issuing the same command again with the same operands gives the same results. -/
def Obligations.CommandsAreRepeatable : Prop :=
  ∀ (i : Instr) (s t : State), exec i s = .next t → exec i t = .next t

/-! ### FOLD -/

/-- R121: the folded value in 32-bit big-endian words, and what else a successful FOLD does. The 160-bit fold of sha1 is the
spec's resolution of a garbled source text (90_conflicts.md C1, D24, log 20). -/
def Obligations.FoldCompletes : Prop :=
  ∀ (alg : Alg) (s : State), alg = .md4 ∨ alg = .md5 ∨ alg = .sha1 →
    ∃ t, exec (.fold alg) s = .next t ∧
      t.v = (bufferWord s.din 0 ^^^ bufferWord s.din 2 ^^^ (if alg = .sha1 then bufferWord s.din 4 else 0)) ++
        (bufferWord s.din 1 ^^^ bufferWord s.din 3) ∧
      t.status.vvalid = true ∧ Succeeded t ∧ Output s t [] ∧ InputsKept s t ∧ WordsKept s t ∧
      t.counter = s.counter ∧ t.snum = s.snum

/-- R120: FOLD turns away the algorithms it does not take, each with its error. -/
def Obligations.FoldRejectsAlgorithms : Prop :=
  ∀ s : State,
    (∃ t, exec (.fold .sha256) s = .next t ∧ ErrorCompleted 7 s t) ∧
    (∃ t, exec (.fold .sha512) s = .next t ∧ ErrorCompleted 7 s t) ∧
    ∀ c : BitVec 3, 5 ≤ c.toNat → ∃ t, exec (.fold (.reserved c)) s = .next t ∧ ErrorCompleted 4 s t

/-- R120: with `BEbytes_8(x)` and eight 0x00 bytes in DIN, FOLD md5 gives V = x. -/
def Obligations.FoldLoadsChosenValue : Prop :=
  ∀ (s : State) (x : DWord), (∀ j, j < 8 → s.din.read j = bigEndianByte x j) →
    (∀ j, 8 ≤ j → j < 16 → s.din.read j = 0) → ∃ t, exec (.fold .md5) s = .next t ∧ t.v = x

/-- R120, R67: FOLD's results depend on the digest's bytes alone: on no other byte of DIN, and not on V where it succeeds
(where it fails, V keeps its value). -/
def Obligations.FoldReadsOnlyDigest : Prop :=
  ∀ (alg : Alg) (s s' t t' : State), (∀ a, a < (if alg = .sha1 then 20 else 16) → s.din.read a = s'.din.read a) →
    exec (.fold alg) s = .next t → exec (.fold alg) s' = .next t' →
    (alg = .md4 ∨ alg = .md5 ∨ alg = .sha1 → t.v = t'.v) ∧ t.status.ecode = t'.status.ecode ∧
      t.doutLen = t'.doutLen ∧ ∀ a, a < 32 → t.dout.read a = t'.dout.read a

/-! ### WORD_ENC and HEX_ENC -/

/-- R131, R132, R134: parity, indices and text of a successful WORD_ENC, and its frame. That the stream is taken from the
most significant bit is the spec's own reading (R132), and the word lengths are R133 (a)'s (log 20). -/
def Obligations.WordEncCompletes : Prop :=
  ∀ s : State, s.status.vvalid = true →
    ∃ t, exec .wordEnc s = .next t ∧ t.parity.toNat = groupSum s.v.toNat ∧
      (∀ k : Fin 6, t.widx[k].toNat = (s.v.toNat * 4 + groupSum s.v.toNat) / 2 ^ (55 - 11 * k.val) % 2048) ∧
      Output s t (sixWords t.widx) ∧ 11 ≤ (sixWords t.widx).length ∧ (sixWords t.widx).length ≤ 29 ∧
      Succeeded t ∧ InputsKept s t ∧ ValueKept s t ∧ t.counter = s.counter ∧ t.snum = s.snum

/-- R135, R136: the one word of HEX_ENC; the 16 characters of a successful HEX_ENC, high nibble first and lowercase, and
its frame; and NoValue while VVALID = 0. -/
def Obligations.HexEncCompletes : Prop :=
  (∀ w : Word, decode w = .ok .hexEnc ↔ w = 0x00000003) ∧ ∀ s : State,
    (s.status.vvalid = true → ∃ t, exec .hexEnc s = .next t ∧
      (∀ k, k < 16 → (t.dout.read k).toNat =
        (if s.v.toNat / 16 ^ (15 - k) % 16 ≤ 9 then 0x30 + s.v.toNat / 16 ^ (15 - k) % 16
          else 0x61 + (s.v.toNat / 16 ^ (15 - k) % 16 - 10))) ∧
      t.doutLen.toNat = 16 ∧ (∀ a, 16 ≤ a → a < 32 → t.dout.read a = 0) ∧
      (∀ a, 32 ≤ a → t.dout.read a = s.dout.read a) ∧ Succeeded t ∧ InputsKept s t ∧ ValueKept s t ∧
      WordsKept s t ∧ t.counter = s.counter ∧ t.snum = s.snum) ∧
    (s.status.vvalid = false → ∃ t, exec .hexEnc s = .next t ∧ ErrorCompleted 9 s t)

/-- R130: WORD_ENC raises NoValue while VVALID = 0. -/
def Obligations.WordEncWithoutValue : Prop :=
  ∀ s : State, s.status.vvalid = false → ∃ t, exec .wordEnc s = .next t ∧ ErrorCompleted 9 s t

/-- R137 (the spec's own derivation, with the stream order of R132, its own reading: log 20): (a) the six indices of a WORD_ENC give back V and a valid checksum; (b) hex-decoding the 16 characters of a
HEX_ENC pairwise gives the eight bytes of V. -/
def Obligations.EncodersCanBeDecoded : Prop :=
  ∀ s : State, s.status.vvalid = true →
    (∃ t, exec .wordEnc s = .next t ∧
      (∑ k : Fin 6, t.widx[k].toNat * 2 ^ (55 - 11 * k.val)) / 4 = s.v.toNat ∧
      (∑ k : Fin 6, t.widx[k].toNat * 2 ^ (55 - 11 * k.val)) % 4 = groupSum s.v.toNat) ∧
    ∃ t, exec .hexEnc s = .next t ∧
      ∀ j, j < 8 → hexValue (t.dout.read (2 * j)) * 16 + hexValue (t.dout.read (2 * j + 1)) =
        (bigEndianByte s.v j).toNat

/-- R133: DICT's words are one to four uppercase letters (the length bound is from general knowledge by the spec's own mark:
log 8, log 20), and two indices have different words as strings. -/
def Obligations.DictionaryMeetsConstraint : Prop :=
  (∀ i, 1 ≤ (wordChars (Config.dict i)).length ∧ (wordChars (Config.dict i)).length ≤ 4 ∧
    ∀ c ∈ wordChars (Config.dict i), 0x41 ≤ c.toNat ∧ c.toNat ≤ 0x5A) ∧
  ∀ i j, wordChars (Config.dict i) = wordChars (Config.dict j) → i = j

/-- R133 (b), R134, R137: the six-word text determines the FoldedValue, whatever dictionary DICT is (log 8). -/
def Obligations.WordTextDeterminesValue : Prop :=
  ∀ s s' t t' : State, s.status.vvalid = true → s'.status.vvalid = true →
    exec .wordEnc s = .next t → exec .wordEnc s' = .next t' →
    (∀ a, a < 32 → t.dout.read a = t'.dout.read a) → s.v = s'.v

/-! ### CTR_MSG and HOTP_TRUNC -/

/-- R150: the one word of CTR_MSG; DOUT[j] is COUNTER[63-8j : 56-8j], eight bytes, for every COUNTER, and nothing else
changes. -/
def Obligations.CtrMsgCompletes : Prop :=
  (∀ w : Word, decode w = .ok .ctrMsg ↔ w = 0x00000004) ∧ ∀ s : State, ∃ t, exec .ctrMsg s = .next t ∧
    Output s t ((List.range 8).map fun j => bigEndianByte s.counter j) ∧ Succeeded t ∧ InputsKept s t ∧
    ValueKept s t ∧ WordsKept s t ∧ t.counter = s.counter ∧ t.snum = s.snum

/-- R151 to R155: offset, truncated value, digits, check digit and frame of a successful HOTP_TRUNC. The check digit's
algorithm is what R154 marks as from general knowledge (log 20). -/
def Obligations.HotpTruncCompletes : Prop :=
  ∀ (alg : Alg) (macBytes off snum r : Nat) (s : State),
    (alg, macBytes) ∈ [(Alg.sha1, 20), (Alg.sha256, 32), (Alg.sha512, 64)] →
    6 ≤ digitsField s → digitsField s ≤ 10 → (toffField s = 255 ∨ toffField s ≤ 15) →
    off = (if toffField s = 255 then (s.din.read (macBytes - 1)).toNat % 16 else toffField s) →
    snum = ((s.din.read off).toNat % 128) * 2 ^ 24 + (s.din.read (off + 1)).toNat * 2 ^ 16 +
      (s.din.read (off + 2)).toNat * 2 ^ 8 + (s.din.read (off + 3)).toNat →
    r = snum % 10 ^ digitsField s →
    ∃ t, exec (.hotpTrunc alg) s = .next t ∧ t.snum.toNat = snum ∧
      (∀ i, i < digitsField s →
        (t.dout.read i).toNat = 0x30 + r / 10 ^ (digitsField s - 1 - i) % 10) ∧
      (s.hotpCfg.getLsbD 4 = true → t.doutLen.toNat = digitsField s + 1 ∧
        (t.dout.read (digitsField s)).toNat = 0x30 + checkDigit r (digitsField s)) ∧
      (s.hotpCfg.getLsbD 4 = false → t.doutLen.toNat = digitsField s) ∧
      (∀ a, t.doutLen.toNat ≤ a → a < 32 → t.dout.read a = 0) ∧
      (∀ a, 32 ≤ a → t.dout.read a = s.dout.read a) ∧
      Succeeded t ∧ InputsKept s t ∧ ValueKept s t ∧ WordsKept s t ∧ t.counter = s.counter

/-- R153: the digits of a code, read as a decimal number, are `snum mod 10^d`, and each is an ASCII digit. -/
def Obligations.HotpCodeDenotesValue : Prop :=
  ∀ (alg : Alg) (s t : State), exec (.hotpTrunc alg) s = .next t → t.status.err = false →
    (∀ i, i < digitsField s → 0x30 ≤ (t.dout.read i).toNat ∧ (t.dout.read i).toNat ≤ 0x39) ∧
    (∑ i ∈ Finset.range (digitsField s), ((t.dout.read i).toNat - 0x30) * 10 ^ (digitsField s - 1 - i)) =
      t.snum.toNat % 10 ^ digitsField s

/-- R154 (the algorithm it marks as from general knowledge, log 20): with CHK = 1 the code with its check digit passes the Luhn test: from the right, every second digit doubled
and its digits summed, the total is a multiple of 10. -/
def Obligations.HotpCodePassesLuhn : Prop :=
  ∀ (alg : Alg) (s t : State), exec (.hotpTrunc alg) s = .next t → t.status.err = false →
    s.hotpCfg.getLsbD 4 = true →
    (∑ j ∈ Finset.range (digitsField s + 1),
      (if j % 2 = 1 then [0, 2, 4, 6, 8, 1, 3, 5, 7, 9].getD ((t.dout.read (digitsField s - j)).toNat - 0x30) 0
        else (t.dout.read (digitsField s - j)).toNat - 0x30)) % 10 = 0

/-- R154 (the spec's own derivation there): leading zero digits do not change the check digit. -/
def Obligations.CheckDigitIgnoresLeadingZeros : Prop :=
  ∀ r d d' : Nat, r < 10 ^ d → d ≤ d' → luhn r d' = luhn r d

/-- R151, R155, R156: HOTP_TRUNC turns away what it does not take, in the order of R182. -/
def Obligations.HotpTruncRejects : Prop :=
  ∀ s : State,
    (∀ alg : Alg, alg ≠ .sha1 → alg ≠ .sha256 → alg ≠ .sha512 →
      ∃ t, exec (.hotpTrunc alg) s = .next t ∧ ErrorCompleted 4 s t) ∧
    ∀ alg : Alg, alg = .sha1 ∨ alg = .sha256 ∨ alg = .sha512 →
      (digitsField s < 6 ∨ 10 < digitsField s → ∃ t, exec (.hotpTrunc alg) s = .next t ∧ ErrorCompleted 10 s t) ∧
      (6 ≤ digitsField s → digitsField s ≤ 10 → 15 < toffField s → toffField s ≠ 255 →
        ∃ t, exec (.hotpTrunc alg) s = .next t ∧ ErrorCompleted 5 s t)

/-- R151, R152, R67: a code depends on HOTP_CFG, on the MAC's last byte and on the four bytes at the selected offset, and on
nothing else. -/
def Obligations.HotpReadsOnlyItsWindow : Prop :=
  ∀ (alg : Alg) (macBytes off : Nat) (s s' t t' : State),
    (alg, macBytes) ∈ [(Alg.sha1, 20), (Alg.sha256, 32), (Alg.sha512, 64)] →
    s.hotpCfg = s'.hotpCfg → s.din.read (macBytes - 1) = s'.din.read (macBytes - 1) →
    off = (if toffField s = 255 then (s.din.read (macBytes - 1)).toNat % 16 else toffField s) →
    (∀ j, j < 4 → s.din.read (off + j) = s'.din.read (off + j)) →
    exec (.hotpTrunc alg) s = .next t → exec (.hotpTrunc alg) s' = .next t' →
    t.doutLen = t'.doutLen ∧ (∀ a, a < 32 → t.dout.read a = t'.dout.read a) ∧
      t.status.ecode = t'.status.ecode ∧ (t.status.err = false → t.snum = t'.snum)

/-! ### TOTP_CTR -/

/-- R170, R171, R172: the counter is the floor of the exact effective time over STEP, DOUT holds its eight bytes, and
nothing else changes. The sign of the UTC offset is R171's own reading (D26, log 20). -/
def Obligations.TotpCtrCompletes : Prop :=
  ∀ (s : State) (e : Int), e = s.totpTime.toInt - 3600 * s.totpUtcoff.toInt → s.totpStep ≠ 0 → 0 ≤ e →
    ∃ t, exec .totpCtr s = .next t ∧
      (t.counter.toNat : Int) * s.totpStep.toNat ≤ e ∧ e < ((t.counter.toNat : Int) + 1) * s.totpStep.toNat ∧
      Output s t ((List.range 8).map fun j => bigEndianByte t.counter j) ∧ Succeeded t ∧ InputsKept s t ∧
      ValueKept s t ∧ WordsKept s t ∧ t.snum = s.snum

/-- R170, R173: a step of 0 and a negative effective time, in that order. The sign of the UTC offset is R171's own reading
(D26, log 20). -/
def Obligations.TotpCtrRejects : Prop :=
  ∀ s : State,
    (s.totpStep = 0 → ∃ t, exec .totpCtr s = .next t ∧ ErrorCompleted 10 s t) ∧
    (s.totpStep ≠ 0 → s.totpTime.toInt < 3600 * s.totpUtcoff.toInt →
      ∃ t, exec .totpCtr s = .next t ∧ ErrorCompleted 6 s t)

/-- R170: the message of TOTP_CTR is the one CTR_MSG gives of the new COUNTER, so that running CTR_MSG after it changes
nothing. -/
def Obligations.TotpMessageIsCtrMsg : Prop :=
  ∀ s t : State, exec .totpCtr s = .next t → t.status.err = false → exec .ctrMsg t = .next t

/-! ### Unobservable state -/

/-- R37, R38 (I9): while VVALID = 0, V reaches nothing: two states that differ in V alone take the same step, and stop
differing once VVALID is 1. And whatever VVALID and BUSY are, no host access shows V or writes it. -/
def Obligations.UnfoldedValueIsUnobservable : Prop :=
  (∀ (s : State) (x : DWord), s.status.vvalid = false →
    (∃ f, step s = .fault f ∧ step { s with v := x } = .fault f) ∨
    ∃ t t', step s = .next t ∧ step { s with v := x } = .next t' ∧ { t' with v := t.v } = t ∧
      (t.status.vvalid = true → t' = t)) ∧
  ∀ (s : State) (x : DWord) (acc : Access) (rest : List Turn), s.agenda = .host acc :: rest →
    (∃ f, step s = .fault f ∧ step { s with v := x } = .fault f) ∨
    ∃ t, step s = .next t ∧ step { s with v := x } = .next { t with v := x } ∧ t.v = s.v

/-- R39, R102 (I12): while BUSY = 0, CUR reaches nothing: two states that differ in CUR alone take the same step, and stop
differing once BUSY is 1. And while BUSY = 1 no host access shows CUR or writes it. -/
def Obligations.IdleCommandWordIsUnobservable : Prop :=
  (∀ (s : State) (w : Word), s.status.busy = false →
    (∃ f, step s = .fault f ∧ step { s with cur := w } = .fault f) ∨
    ∃ t t', step s = .next t ∧ step { s with cur := w } = .next t' ∧ { t' with cur := t.cur } = t ∧
      (t.status.busy = true → t' = t)) ∧
  ∀ (s : State) (w : Word) (acc : Access) (rest : List Turn), s.status.busy = true → s.agenda = .host acc :: rest →
    (∃ f, step s = .fault f ∧ step { s with cur := w } = .fault f) ∨
    ∃ t, step s = .next t ∧ step { s with cur := w } = .next { t with cur := w } ∧ t.cur = s.cur

/-! ### Host access -/

/-- R108, R42, R63: a write to a read-write register while BUSY = 0 stores the writable bits, whatever they are, and
changes no other register. -/
def Obligations.WriteStoresWritableBits : Prop :=
  ∀ (s : State) (w : Word), s.status.busy = false →
    AfterWrite s .hotpCfg w { s with hotpCfg := w &&& 0x0000FF1F } ∧
    AfterWrite s .totpUtcoff w { s with totpUtcoff := (w &&& 0x000000FF).setWidth 8 } ∧
    AfterWrite s .totpStep w { s with totpStep := w } ∧
    AfterWrite s .totpTimeLo w { s with totpTime := s.totpTime.extractLsb' 32 32 ++ w } ∧
    AfterWrite s .totpTimeHi w { s with totpTime := w ++ s.totpTime.extractLsb' 0 32 } ∧
    AfterWrite s .counterLo w { s with counter := s.counter.extractLsb' 32 32 ++ w } ∧
    AfterWrite s .counterHi w { s with counter := w ++ s.counter.extractLsb' 0 32 } ∧
    ∀ k : Fin 16, ∃ m : Memory, AfterWrite s (.din k) w { s with din := m } ∧
      ∀ a, m.read a = if a / 4 = k.val then w.extractLsb' (24 - 8 * (a % 4)) 8 else s.din.read a

/-- R103: a write to CMD or to a read-write register while BUSY = 1 does nothing but set OVR. -/
def Obligations.WriteWhileBusyIsDropped : Prop :=
  ∀ (s : State) (r : Reg) (w : Word), s.status.busy = true →
    (r ∈ [Reg.cmd, .hotpCfg, .totpStep, .totpTimeLo, .totpTimeHi, .totpUtcoff, .counterLo, .counterHi] ∨
      ∃ k, r = .din k) →
    AfterWrite s r w { s with status := { s.status with ovr := true } }

/-- R104: a write to CMD while BUSY = 0 issues the command, whatever the word. -/
def Obligations.IssueLatchesCommand : Prop :=
  ∀ (s : State) (w : Word), s.status.busy = false →
    AfterWrite s .cmd w { s with
      cur := w, status := { s.status with busy := true, done := false, err := false, ecode := 0 } }

/-- R105: a write to STATUS clears OVR if bit 8 of the word is 1, and does nothing else, whatever BUSY is. -/
def Obligations.StatusWriteClearsOverrun : Prop :=
  ∀ (s : State) (w : Word),
    AfterWrite s .status w { s with status := { s.status with ovr := if w.getLsbD 8 then false else s.status.ovr } }

/-- R102: a write to a read-only register changes nothing, busy or not, and CMD reads 0. -/
def Obligations.ReadOnlyWritesAreIgnored : Prop :=
  ∀ (s : State) (w : Word),
    AfterWrite s .snum w s ∧ AfterWrite s .doutLen w s ∧ AfterWrite s .parity w s ∧
    (∀ k, AfterWrite s (.widx k) w s) ∧ (∀ k, AfterWrite s (.dout k) w s) ∧ AfterRead s .cmd 0x00000000

/-- R62, R107: which accesses are accepted; every other one is refused, changes nothing of OTPPD, and is a fault of
the host's step. -/
def Obligations.RefusedAccessIsBusError : Prop :=
  (∀ a size w, (Access.write a size w).accepted ↔
    size = 32 ∧ Config.base ≤ a ∧ mappedOffset (a - Config.base)) ∧
  (∀ a size, (Access.read a size).accepted ↔ size = 32 ∧ Config.base ≤ a ∧ mappedOffset (a - Config.base)) ∧
  ∀ (acc : Access) (s : State), ¬ acc.accepted → busAccess acc s = (.busError, s) ∧
    ∀ rest, s.agenda = .host acc :: rest → step s = .fault (.busError acc)

/-- R25, R101: STATUS reads as its fields, even while BUSY = 1, and reading it clears nothing. -/
def Obligations.StatusReadsItsFields : Prop :=
  ∀ s : State, ∃ x : Word, AfterRead s .status x ∧
    x.toNat = s.status.busy.toNat + 2 * s.status.done.toNat + 4 * s.status.err.toNat + 8 * s.status.vvalid.toNat +
      16 * s.status.ecode.toNat + 256 * s.status.ovr.toNat

/-- R101: the input registers read their values at any time. -/
def Obligations.InputRegistersReadTrueValues : Prop :=
  ∀ s : State, AfterRead s .hotpCfg s.hotpCfg ∧ AfterRead s .totpStep s.totpStep ∧
    AfterRead s .totpTimeLo (BitVec.ofNat 32 (s.totpTime.toNat % 2 ^ 32)) ∧
    AfterRead s .totpTimeHi (BitVec.ofNat 32 (s.totpTime.toNat / 2 ^ 32)) ∧
    AfterRead s .totpUtcoff (BitVec.ofNat 32 s.totpUtcoff.toNat)

/-- R101: the result registers read their values while BUSY = 0. -/
def Obligations.ResultRegistersReadTrueValues : Prop :=
  ∀ s : State, s.status.busy = false →
    AfterRead s .counterLo (BitVec.ofNat 32 (s.counter.toNat % 2 ^ 32)) ∧
    AfterRead s .counterHi (BitVec.ofNat 32 (s.counter.toNat / 2 ^ 32)) ∧
    AfterRead s .snum (BitVec.ofNat 32 s.snum.toNat) ∧ AfterRead s .doutLen (BitVec.ofNat 32 s.doutLen.toNat) ∧
    AfterRead s .parity (BitVec.ofNat 32 s.parity.toNat) ∧
    ∀ k : Fin 6, AfterRead s (.widx k) (BitVec.ofNat 32 s.widx[k].toNat)

/-- R109, R63: DIN and DOUT words read as their four bytes, the lowest in bits 31:24. -/
def Obligations.BufferWordsArePacked : Prop :=
  ∀ s : State, (∀ k : Fin 16, AfterRead s (.din k) (bufferWord s.din k.val)) ∧
    (s.status.busy = false → ∀ k : Fin 8, AfterRead s (.dout k) (bufferWord s.dout k.val))

/-- R106: while BUSY = 1 a result register reads a free word, a fresh one each time. The counter of the free words is the
model's choice (log 3); the statement holds whatever the words are. -/
def Obligations.BusyResultReadIsFree : Prop :=
  ∀ (s : State) (r : Reg) (rest : List Turn), s.status.busy = true →
    (r ∈ [Reg.counterLo, .counterHi, .snum, .doutLen, .parity] ∨ (∃ k, r = .widx k) ∨ ∃ k, r = .dout k) →
    step { s with agenda := rd r :: rest } =
      .next { s with agenda := rest, bus := .data (Config.draw32 s.draws), draws := s.draws + 1 }

/-- R92, R42: `WR64` puts a whole 64-bit value in a register pair. -/
def Obligations.PairWritesStoreBothHalves : Prop :=
  ∀ (s : State) (x : Int) (rest : List Turn), s.status.busy = false →
    core.run 2 { s with agenda := wr64Time x ++ rest } =
      .next { s with agenda := rest, bus := .written, totpTime := BitVec.ofInt 64 x } ∧
    core.run 2 { s with agenda := wr64Counter x ++ rest } =
      .next { s with agenda := rest, bus := .written, counter := BitVec.ofInt 64 x }

/-- R92, R63: `LOADIN` puts its bytes in DIN from DIN[0] up, fills its last word with 0x00, and leaves the rest. -/
def Obligations.LoadInFillsDin : Prop :=
  ∀ (s : State) (bs : List Byte) (rest : List Turn), s.status.busy = false → bs.length ≤ 64 →
    s.agenda = loadIn bs ++ rest →
    ∃ m, core.run (loadIn bs).length s =
        .next { s with din := m, agenda := rest, bus := if bs = [] then s.bus else .written } ∧
      ∀ a, m.read a = if a < 4 * ((bs.length + 3) / 4) then bs.getD a 0 else s.din.read a

/-! ### Whole-machine rules -/

/-- R44 (the spec's own summary of R103 to R105, R184, R185 and R201): which steps change a status flag. Where the Block
moves past the agenda's end: log 6. -/
def Obligations.FlagsChangeOnlyAsSaid : Prop :=
  ∀ s t : State, step s = .next t →
    (s.status.busy = false → t.status.busy = true → ∃ w, Issues s w) ∧
    (s.status.busy = true → t.status.busy = false → BlockMoves s ∨ Resets s) ∧
    (s.status.done = false → t.status.done = true → BlockMoves s) ∧
    (s.status.done = true → t.status.done = false → Resets s ∨ ∃ w, Issues s w) ∧
    (t.status.err ≠ s.status.err ∨ t.status.ecode ≠ s.status.ecode →
      BlockMoves s ∨ Resets s ∨ ∃ w, Issues s w) ∧
    (s.status.vvalid = false → t.status.vvalid = true →
      BlockMoves s ∧ ∃ alg, decode s.cur = .ok (.fold alg)) ∧
    (s.status.vvalid = true → t.status.vvalid = false → Resets s) ∧
    (s.status.ovr = false → t.status.ovr = true →
      s.status.busy = true ∧ ∃ r w, s.agenda.head? = some (wr r w)) ∧
    (s.status.ovr = true → t.status.ovr = false →
      Resets s ∨ ∃ w : Word, w.getLsbD 8 = true ∧ s.agenda.head? = some (wr .status w))

/-- R73, R103: while a command is in flight a host access changes no operand, no result and not the command. -/
def Obligations.OperandsFrozenWhileBusy : Prop :=
  ∀ (s t : State) (acc : Access) (rest : List Turn), s.status.busy = true → s.agenda = .host acc :: rest →
    step s = .next t →
    { t with status := { t.status with ovr := s.status.ovr }, agenda := s.agenda, bus := s.bus, draws := s.draws } = s

/-- R73, R70, R187: however many host accesses come between issue and completion, and whichever, the completion leaves
the same registers. -/
def Obligations.CompletionIgnoresLatency : Prop :=
  ∀ (s t0 : State) (accs : List Access) (rest : List Turn), s.status.busy = true → (∀ a ∈ accs, a.accepted) →
    step { s with agenda := .block :: rest } = .next t0 →
    ∃ t, core.run (accs.length + 1) { s with agenda := accs.map .host ++ .block :: rest } = .next t ∧
      { t with status := { t.status with ovr := t0.status.ovr }, bus := t0.bus, draws := t0.draws } = t0

/-- R212: while BUSY = 1 and no reset occurs, the completion comes, whatever accepted accesses the host makes. That the
Block moves past the agenda's end is the model's form of its fairness (log 6). -/
def Obligations.CompletionAlwaysComes : Prop :=
  ∀ s : State, s.status.busy = true → (∀ u ∈ s.agenda, u.quiet) →
    ∃ k t, k ≤ s.agenda.length + 1 ∧ core.run k s = .next t ∧ t.status.busy = false ∧ t.status.done = true

/-- R92, R104, R184, R70: `EXEC <command>` from an idle state, with any number of polls: the last poll reads the STATUS
of the completed command, and the machine is in the state the command leaves. -/
def Obligations.ExecStatementCompletes : Prop :=
  ∀ (s : State) (i : Instr) (polls : Nat) (rest : List Turn), s.status.busy = false → i.WellFormed →
    s.agenda = execTurns i polls ++ rest →
    ∃ u, exec i { s with
        cur := encode i, status := { s.status with busy := true, done := false, err := false, ecode := 0 } } = .next u ∧
      u.status.busy = false ∧ u.status.done = true ∧
      core.run (polls + 3) s = .next { u with agenda := rest, bus := .data (Reg.value .status u) }
end

