-- ==== Sys2Proof/Laws/State.lean ====
section
/-! SUPPORT. One lemma per field per update of State and Status, true by rfl: no later proof unfolds a record update. -/

namespace Sys2Proof.Machine

/-! ### STATUS (10_state.md R44) -/

@[simp] theorem Status.issued_busy (st : Status) : st.issued.busy = true := rfl
@[simp] theorem Status.issued_done (st : Status) : st.issued.done = false := rfl
@[simp] theorem Status.issued_err (st : Status) : st.issued.err = false := rfl
@[simp] theorem Status.issued_vvalid (st : Status) : st.issued.vvalid = st.vvalid := rfl
@[simp] theorem Status.issued_ecode (st : Status) : st.issued.ecode = 0 := rfl
@[simp] theorem Status.issued_ovr (st : Status) : st.issued.ovr = st.ovr := rfl

@[simp] theorem Status.succeeded_busy (st : Status) : st.succeeded.busy = false := rfl
@[simp] theorem Status.succeeded_done (st : Status) : st.succeeded.done = true := rfl
@[simp] theorem Status.succeeded_err (st : Status) : st.succeeded.err = false := rfl
@[simp] theorem Status.succeeded_vvalid (st : Status) : st.succeeded.vvalid = st.vvalid := rfl
@[simp] theorem Status.succeeded_ecode (st : Status) : st.succeeded.ecode = 0 := rfl
@[simp] theorem Status.succeeded_ovr (st : Status) : st.succeeded.ovr = st.ovr := rfl

@[simp] theorem Status.failed_busy (st : Status) (k : ErrorKind) : (st.failed k).busy = false := rfl
@[simp] theorem Status.failed_done (st : Status) (k : ErrorKind) : (st.failed k).done = true := rfl
@[simp] theorem Status.failed_err (st : Status) (k : ErrorKind) : (st.failed k).err = true := rfl
@[simp] theorem Status.failed_vvalid (st : Status) (k : ErrorKind) : (st.failed k).vvalid = st.vvalid := rfl
@[simp] theorem Status.failed_ecode (st : Status) (k : ErrorKind) : (st.failed k).ecode = k.code := rfl
@[simp] theorem Status.failed_ovr (st : Status) (k : ErrorKind) : (st.failed k).ovr = st.ovr := rfl

@[simp] theorem Status.withValue_busy (st : Status) : st.withValue.busy = st.busy := rfl
@[simp] theorem Status.withValue_done (st : Status) : st.withValue.done = st.done := rfl
@[simp] theorem Status.withValue_err (st : Status) : st.withValue.err = st.err := rfl
@[simp] theorem Status.withValue_vvalid (st : Status) : st.withValue.vvalid = true := rfl
@[simp] theorem Status.withValue_ecode (st : Status) : st.withValue.ecode = st.ecode := rfl
@[simp] theorem Status.withValue_ovr (st : Status) : st.withValue.ovr = st.ovr := rfl

@[simp] theorem Status.overrun_busy (st : Status) : st.overrun.busy = st.busy := rfl
@[simp] theorem Status.overrun_done (st : Status) : st.overrun.done = st.done := rfl
@[simp] theorem Status.overrun_err (st : Status) : st.overrun.err = st.err := rfl
@[simp] theorem Status.overrun_vvalid (st : Status) : st.overrun.vvalid = st.vvalid := rfl
@[simp] theorem Status.overrun_ecode (st : Status) : st.overrun.ecode = st.ecode := rfl
@[simp] theorem Status.overrun_ovr (st : Status) : st.overrun.ovr = true := rfl

@[simp] theorem Status.written_busy (st : Status) (w : Word) : (st.written w).busy = st.busy := rfl
@[simp] theorem Status.written_done (st : Status) (w : Word) : (st.written w).done = st.done := rfl
@[simp] theorem Status.written_err (st : Status) (w : Word) : (st.written w).err = st.err := rfl
@[simp] theorem Status.written_vvalid (st : Status) (w : Word) : (st.written w).vvalid = st.vvalid := rfl
@[simp] theorem Status.written_ecode (st : Status) (w : Word) : (st.written w).ecode = st.ecode := rfl
@[simp] theorem Status.written_ovr (st : Status) (w : Word) : (st.written w).ovr = (st.ovr && !w.getLsbD 8) := rfl

/-! ### A successful FOLD (41_fold.md R120) -/

@[simp] theorem State.withFolded_status (s : State) (x : DWord) : (s.withFolded x).status = s.status.withValue := rfl
@[simp] theorem State.withFolded_hotpCfg (s : State) (x : DWord) : (s.withFolded x).hotpCfg = s.hotpCfg := rfl
@[simp] theorem State.withFolded_totpStep (s : State) (x : DWord) : (s.withFolded x).totpStep = s.totpStep := rfl
@[simp] theorem State.withFolded_totpTime (s : State) (x : DWord) : (s.withFolded x).totpTime = s.totpTime := rfl
@[simp] theorem State.withFolded_totpUtcoff (s : State) (x : DWord) : (s.withFolded x).totpUtcoff = s.totpUtcoff := rfl
@[simp] theorem State.withFolded_counter (s : State) (x : DWord) : (s.withFolded x).counter = s.counter := rfl
@[simp] theorem State.withFolded_snum (s : State) (x : DWord) : (s.withFolded x).snum = s.snum := rfl
@[simp] theorem State.withFolded_doutLen (s : State) (x : DWord) : (s.withFolded x).doutLen = s.doutLen := rfl
@[simp] theorem State.withFolded_din (s : State) (x : DWord) : (s.withFolded x).din = s.din := rfl
@[simp] theorem State.withFolded_dout (s : State) (x : DWord) : (s.withFolded x).dout = s.dout := rfl
@[simp] theorem State.withFolded_parity (s : State) (x : DWord) : (s.withFolded x).parity = s.parity := rfl
@[simp] theorem State.withFolded_widx (s : State) (x : DWord) : (s.withFolded x).widx = s.widx := rfl
@[simp] theorem State.withFolded_v (s : State) (x : DWord) : (s.withFolded x).v = x := rfl
@[simp] theorem State.withFolded_cur (s : State) (x : DWord) : (s.withFolded x).cur = s.cur := rfl
@[simp] theorem State.withFolded_agenda (s : State) (x : DWord) : (s.withFolded x).agenda = s.agenda := rfl
@[simp] theorem State.withFolded_bus (s : State) (x : DWord) : (s.withFolded x).bus = s.bus := rfl
@[simp] theorem State.withFolded_draws (s : State) (x : DWord) : (s.withFolded x).draws = s.draws := rfl

/-! ### A successful WORD_ENC (42_encoders.md R130) -/

@[simp] theorem State.withWords_status (s : State) (p : BitVec 2) (idx : Vector (BitVec 11) 6) : (s.withWords p idx).status = s.status := rfl
@[simp] theorem State.withWords_hotpCfg (s : State) (p : BitVec 2) (idx : Vector (BitVec 11) 6) : (s.withWords p idx).hotpCfg = s.hotpCfg := rfl
@[simp] theorem State.withWords_totpStep (s : State) (p : BitVec 2) (idx : Vector (BitVec 11) 6) : (s.withWords p idx).totpStep = s.totpStep := rfl
@[simp] theorem State.withWords_totpTime (s : State) (p : BitVec 2) (idx : Vector (BitVec 11) 6) : (s.withWords p idx).totpTime = s.totpTime := rfl
@[simp] theorem State.withWords_totpUtcoff (s : State) (p : BitVec 2) (idx : Vector (BitVec 11) 6) : (s.withWords p idx).totpUtcoff = s.totpUtcoff := rfl
@[simp] theorem State.withWords_counter (s : State) (p : BitVec 2) (idx : Vector (BitVec 11) 6) : (s.withWords p idx).counter = s.counter := rfl
@[simp] theorem State.withWords_snum (s : State) (p : BitVec 2) (idx : Vector (BitVec 11) 6) : (s.withWords p idx).snum = s.snum := rfl
@[simp] theorem State.withWords_doutLen (s : State) (p : BitVec 2) (idx : Vector (BitVec 11) 6) : (s.withWords p idx).doutLen = s.doutLen := rfl
@[simp] theorem State.withWords_din (s : State) (p : BitVec 2) (idx : Vector (BitVec 11) 6) : (s.withWords p idx).din = s.din := rfl
@[simp] theorem State.withWords_dout (s : State) (p : BitVec 2) (idx : Vector (BitVec 11) 6) : (s.withWords p idx).dout = s.dout := rfl
@[simp] theorem State.withWords_parity (s : State) (p : BitVec 2) (idx : Vector (BitVec 11) 6) : (s.withWords p idx).parity = p := rfl
@[simp] theorem State.withWords_widx (s : State) (p : BitVec 2) (idx : Vector (BitVec 11) 6) : (s.withWords p idx).widx = idx := rfl
@[simp] theorem State.withWords_v (s : State) (p : BitVec 2) (idx : Vector (BitVec 11) 6) : (s.withWords p idx).v = s.v := rfl
@[simp] theorem State.withWords_cur (s : State) (p : BitVec 2) (idx : Vector (BitVec 11) 6) : (s.withWords p idx).cur = s.cur := rfl
@[simp] theorem State.withWords_agenda (s : State) (p : BitVec 2) (idx : Vector (BitVec 11) 6) : (s.withWords p idx).agenda = s.agenda := rfl
@[simp] theorem State.withWords_bus (s : State) (p : BitVec 2) (idx : Vector (BitVec 11) 6) : (s.withWords p idx).bus = s.bus := rfl
@[simp] theorem State.withWords_draws (s : State) (p : BitVec 2) (idx : Vector (BitVec 11) 6) : (s.withWords p idx).draws = s.draws := rfl

/-! ### A successful HOTP_TRUNC (43_hotp.md R151) -/

@[simp] theorem State.withSnum_status (s : State) (n : BitVec 31) : (s.withSnum n).status = s.status := rfl
@[simp] theorem State.withSnum_hotpCfg (s : State) (n : BitVec 31) : (s.withSnum n).hotpCfg = s.hotpCfg := rfl
@[simp] theorem State.withSnum_totpStep (s : State) (n : BitVec 31) : (s.withSnum n).totpStep = s.totpStep := rfl
@[simp] theorem State.withSnum_totpTime (s : State) (n : BitVec 31) : (s.withSnum n).totpTime = s.totpTime := rfl
@[simp] theorem State.withSnum_totpUtcoff (s : State) (n : BitVec 31) : (s.withSnum n).totpUtcoff = s.totpUtcoff := rfl
@[simp] theorem State.withSnum_counter (s : State) (n : BitVec 31) : (s.withSnum n).counter = s.counter := rfl
@[simp] theorem State.withSnum_snum (s : State) (n : BitVec 31) : (s.withSnum n).snum = n := rfl
@[simp] theorem State.withSnum_doutLen (s : State) (n : BitVec 31) : (s.withSnum n).doutLen = s.doutLen := rfl
@[simp] theorem State.withSnum_din (s : State) (n : BitVec 31) : (s.withSnum n).din = s.din := rfl
@[simp] theorem State.withSnum_dout (s : State) (n : BitVec 31) : (s.withSnum n).dout = s.dout := rfl
@[simp] theorem State.withSnum_parity (s : State) (n : BitVec 31) : (s.withSnum n).parity = s.parity := rfl
@[simp] theorem State.withSnum_widx (s : State) (n : BitVec 31) : (s.withSnum n).widx = s.widx := rfl
@[simp] theorem State.withSnum_v (s : State) (n : BitVec 31) : (s.withSnum n).v = s.v := rfl
@[simp] theorem State.withSnum_cur (s : State) (n : BitVec 31) : (s.withSnum n).cur = s.cur := rfl
@[simp] theorem State.withSnum_agenda (s : State) (n : BitVec 31) : (s.withSnum n).agenda = s.agenda := rfl
@[simp] theorem State.withSnum_bus (s : State) (n : BitVec 31) : (s.withSnum n).bus = s.bus := rfl
@[simp] theorem State.withSnum_draws (s : State) (n : BitVec 31) : (s.withSnum n).draws = s.draws := rfl

/-! ### A successful TOTP_CTR (44_totp.md R170) -/

@[simp] theorem State.withCounter_status (s : State) (c : DWord) : (s.withCounter c).status = s.status := rfl
@[simp] theorem State.withCounter_hotpCfg (s : State) (c : DWord) : (s.withCounter c).hotpCfg = s.hotpCfg := rfl
@[simp] theorem State.withCounter_totpStep (s : State) (c : DWord) : (s.withCounter c).totpStep = s.totpStep := rfl
@[simp] theorem State.withCounter_totpTime (s : State) (c : DWord) : (s.withCounter c).totpTime = s.totpTime := rfl
@[simp] theorem State.withCounter_totpUtcoff (s : State) (c : DWord) : (s.withCounter c).totpUtcoff = s.totpUtcoff := rfl
@[simp] theorem State.withCounter_counter (s : State) (c : DWord) : (s.withCounter c).counter = c := rfl
@[simp] theorem State.withCounter_snum (s : State) (c : DWord) : (s.withCounter c).snum = s.snum := rfl
@[simp] theorem State.withCounter_doutLen (s : State) (c : DWord) : (s.withCounter c).doutLen = s.doutLen := rfl
@[simp] theorem State.withCounter_din (s : State) (c : DWord) : (s.withCounter c).din = s.din := rfl
@[simp] theorem State.withCounter_dout (s : State) (c : DWord) : (s.withCounter c).dout = s.dout := rfl
@[simp] theorem State.withCounter_parity (s : State) (c : DWord) : (s.withCounter c).parity = s.parity := rfl
@[simp] theorem State.withCounter_widx (s : State) (c : DWord) : (s.withCounter c).widx = s.widx := rfl
@[simp] theorem State.withCounter_v (s : State) (c : DWord) : (s.withCounter c).v = s.v := rfl
@[simp] theorem State.withCounter_cur (s : State) (c : DWord) : (s.withCounter c).cur = s.cur := rfl
@[simp] theorem State.withCounter_agenda (s : State) (c : DWord) : (s.withCounter c).agenda = s.agenda := rfl
@[simp] theorem State.withCounter_bus (s : State) (c : DWord) : (s.withCounter c).bus = s.bus := rfl
@[simp] theorem State.withCounter_draws (s : State) (c : DWord) : (s.withCounter c).draws = s.draws := rfl

/-! ### Success completion (60_exceptions.md R184) -/

@[simp] theorem complete_status (out : List Byte) (s : State) : (complete out s).status = s.status.succeeded := rfl
@[simp] theorem complete_hotpCfg (out : List Byte) (s : State) : (complete out s).hotpCfg = s.hotpCfg := rfl
@[simp] theorem complete_totpStep (out : List Byte) (s : State) : (complete out s).totpStep = s.totpStep := rfl
@[simp] theorem complete_totpTime (out : List Byte) (s : State) : (complete out s).totpTime = s.totpTime := rfl
@[simp] theorem complete_totpUtcoff (out : List Byte) (s : State) : (complete out s).totpUtcoff = s.totpUtcoff := rfl
@[simp] theorem complete_counter (out : List Byte) (s : State) : (complete out s).counter = s.counter := rfl
@[simp] theorem complete_snum (out : List Byte) (s : State) : (complete out s).snum = s.snum := rfl
@[simp] theorem complete_doutLen (out : List Byte) (s : State) : (complete out s).doutLen = BitVec.ofNat 6 out.length := rfl
@[simp] theorem complete_din (out : List Byte) (s : State) : (complete out s).din = s.din := rfl
@[simp] theorem complete_dout (out : List Byte) (s : State) : (complete out s).dout = s.dout.withOutput out := rfl
@[simp] theorem complete_parity (out : List Byte) (s : State) : (complete out s).parity = s.parity := rfl
@[simp] theorem complete_widx (out : List Byte) (s : State) : (complete out s).widx = s.widx := rfl
@[simp] theorem complete_v (out : List Byte) (s : State) : (complete out s).v = s.v := rfl
@[simp] theorem complete_cur (out : List Byte) (s : State) : (complete out s).cur = s.cur := rfl
@[simp] theorem complete_agenda (out : List Byte) (s : State) : (complete out s).agenda = s.agenda := rfl
@[simp] theorem complete_bus (out : List Byte) (s : State) : (complete out s).bus = s.bus := rfl
@[simp] theorem complete_draws (out : List Byte) (s : State) : (complete out s).draws = s.draws := rfl

/-! ### Error completion (60_exceptions.md R185) -/

@[simp] theorem errorComplete_status (k : ErrorKind) (s : State) : (errorComplete k s).status = s.status.failed k := rfl
@[simp] theorem errorComplete_hotpCfg (k : ErrorKind) (s : State) : (errorComplete k s).hotpCfg = s.hotpCfg := rfl
@[simp] theorem errorComplete_totpStep (k : ErrorKind) (s : State) : (errorComplete k s).totpStep = s.totpStep := rfl
@[simp] theorem errorComplete_totpTime (k : ErrorKind) (s : State) : (errorComplete k s).totpTime = s.totpTime := rfl
@[simp] theorem errorComplete_totpUtcoff (k : ErrorKind) (s : State) : (errorComplete k s).totpUtcoff = s.totpUtcoff := rfl
@[simp] theorem errorComplete_counter (k : ErrorKind) (s : State) : (errorComplete k s).counter = s.counter := rfl
@[simp] theorem errorComplete_snum (k : ErrorKind) (s : State) : (errorComplete k s).snum = s.snum := rfl
@[simp] theorem errorComplete_doutLen (k : ErrorKind) (s : State) : (errorComplete k s).doutLen = 0 := rfl
@[simp] theorem errorComplete_din (k : ErrorKind) (s : State) : (errorComplete k s).din = s.din := rfl
@[simp] theorem errorComplete_dout (k : ErrorKind) (s : State) : (errorComplete k s).dout = s.dout.withOutput [] := rfl
@[simp] theorem errorComplete_parity (k : ErrorKind) (s : State) : (errorComplete k s).parity = s.parity := rfl
@[simp] theorem errorComplete_widx (k : ErrorKind) (s : State) : (errorComplete k s).widx = s.widx := rfl
@[simp] theorem errorComplete_v (k : ErrorKind) (s : State) : (errorComplete k s).v = s.v := rfl
@[simp] theorem errorComplete_cur (k : ErrorKind) (s : State) : (errorComplete k s).cur = s.cur := rfl
@[simp] theorem errorComplete_agenda (k : ErrorKind) (s : State) : (errorComplete k s).agenda = s.agenda := rfl
@[simp] theorem errorComplete_bus (k : ErrorKind) (s : State) : (errorComplete k s).bus = s.bus := rfl
@[simp] theorem errorComplete_draws (k : ErrorKind) (s : State) : (errorComplete k s).draws = s.draws := rfl

/-! ### Issue (40_host_access.md R104) -/

@[simp] theorem issue_status (w : Word) (s : State) : (issue w s).status = s.status.issued := rfl
@[simp] theorem issue_hotpCfg (w : Word) (s : State) : (issue w s).hotpCfg = s.hotpCfg := rfl
@[simp] theorem issue_totpStep (w : Word) (s : State) : (issue w s).totpStep = s.totpStep := rfl
@[simp] theorem issue_totpTime (w : Word) (s : State) : (issue w s).totpTime = s.totpTime := rfl
@[simp] theorem issue_totpUtcoff (w : Word) (s : State) : (issue w s).totpUtcoff = s.totpUtcoff := rfl
@[simp] theorem issue_counter (w : Word) (s : State) : (issue w s).counter = s.counter := rfl
@[simp] theorem issue_snum (w : Word) (s : State) : (issue w s).snum = s.snum := rfl
@[simp] theorem issue_doutLen (w : Word) (s : State) : (issue w s).doutLen = s.doutLen := rfl
@[simp] theorem issue_din (w : Word) (s : State) : (issue w s).din = s.din := rfl
@[simp] theorem issue_dout (w : Word) (s : State) : (issue w s).dout = s.dout := rfl
@[simp] theorem issue_parity (w : Word) (s : State) : (issue w s).parity = s.parity := rfl
@[simp] theorem issue_widx (w : Word) (s : State) : (issue w s).widx = s.widx := rfl
@[simp] theorem issue_v (w : Word) (s : State) : (issue w s).v = s.v := rfl
@[simp] theorem issue_cur (w : Word) (s : State) : (issue w s).cur = w := rfl
@[simp] theorem issue_agenda (w : Word) (s : State) : (issue w s).agenda = s.agenda := rfl
@[simp] theorem issue_bus (w : Word) (s : State) : (issue w s).bus = s.bus := rfl
@[simp] theorem issue_draws (w : Word) (s : State) : (issue w s).draws = s.draws := rfl

/-! ### A dropped write (40_host_access.md R103) -/

@[simp] theorem dropWrite_status (s : State) : (dropWrite s).status = s.status.overrun := rfl
@[simp] theorem dropWrite_hotpCfg (s : State) : (dropWrite s).hotpCfg = s.hotpCfg := rfl
@[simp] theorem dropWrite_totpStep (s : State) : (dropWrite s).totpStep = s.totpStep := rfl
@[simp] theorem dropWrite_totpTime (s : State) : (dropWrite s).totpTime = s.totpTime := rfl
@[simp] theorem dropWrite_totpUtcoff (s : State) : (dropWrite s).totpUtcoff = s.totpUtcoff := rfl
@[simp] theorem dropWrite_counter (s : State) : (dropWrite s).counter = s.counter := rfl
@[simp] theorem dropWrite_snum (s : State) : (dropWrite s).snum = s.snum := rfl
@[simp] theorem dropWrite_doutLen (s : State) : (dropWrite s).doutLen = s.doutLen := rfl
@[simp] theorem dropWrite_din (s : State) : (dropWrite s).din = s.din := rfl
@[simp] theorem dropWrite_dout (s : State) : (dropWrite s).dout = s.dout := rfl
@[simp] theorem dropWrite_parity (s : State) : (dropWrite s).parity = s.parity := rfl
@[simp] theorem dropWrite_widx (s : State) : (dropWrite s).widx = s.widx := rfl
@[simp] theorem dropWrite_v (s : State) : (dropWrite s).v = s.v := rfl
@[simp] theorem dropWrite_cur (s : State) : (dropWrite s).cur = s.cur := rfl
@[simp] theorem dropWrite_agenda (s : State) : (dropWrite s).agenda = s.agenda := rfl
@[simp] theorem dropWrite_bus (s : State) : (dropWrite s).bus = s.bus := rfl
@[simp] theorem dropWrite_draws (s : State) : (dropWrite s).draws = s.draws := rfl

/-! ### Reset (70_reset_and_hazards.md R201) -/

@[simp] theorem resetTurn_status (s : State) : (resetTurn s).status = State.reset.status := rfl
@[simp] theorem resetTurn_hotpCfg (s : State) : (resetTurn s).hotpCfg = State.reset.hotpCfg := rfl
@[simp] theorem resetTurn_totpStep (s : State) : (resetTurn s).totpStep = State.reset.totpStep := rfl
@[simp] theorem resetTurn_totpTime (s : State) : (resetTurn s).totpTime = State.reset.totpTime := rfl
@[simp] theorem resetTurn_totpUtcoff (s : State) : (resetTurn s).totpUtcoff = State.reset.totpUtcoff := rfl
@[simp] theorem resetTurn_counter (s : State) : (resetTurn s).counter = State.reset.counter := rfl
@[simp] theorem resetTurn_snum (s : State) : (resetTurn s).snum = State.reset.snum := rfl
@[simp] theorem resetTurn_doutLen (s : State) : (resetTurn s).doutLen = State.reset.doutLen := rfl
@[simp] theorem resetTurn_din (s : State) : (resetTurn s).din = State.reset.din := rfl
@[simp] theorem resetTurn_dout (s : State) : (resetTurn s).dout = State.reset.dout := rfl
@[simp] theorem resetTurn_parity (s : State) : (resetTurn s).parity = State.reset.parity := rfl
@[simp] theorem resetTurn_widx (s : State) : (resetTurn s).widx = State.reset.widx := rfl
@[simp] theorem resetTurn_v (s : State) : (resetTurn s).v = State.reset.v := rfl
@[simp] theorem resetTurn_cur (s : State) : (resetTurn s).cur = State.reset.cur := rfl
@[simp] theorem resetTurn_agenda (s : State) : (resetTurn s).agenda = s.agenda := rfl
@[simp] theorem resetTurn_bus (s : State) : (resetTurn s).bus = State.reset.bus := rfl
@[simp] theorem resetTurn_draws (s : State) : (resetTurn s).draws = s.draws := rfl

end Sys2Proof.Machine
end

