-- ==== Sys2Proof/Laws/Bus.lean ====
section
/-! SUPPORT. Which register an access reaches, what each kind of access does, and what a step can do, said once. -/

namespace Sys2Proof.Machine

theorem regAtOffset_offset (r : Reg) : regAtOffset r.offset = some r := by
  cases r <;> first | rfl | (rename_i k; revert k; decide)

theorem offset_of_regAtOffset {o : Nat} {r : Reg} (h : regAtOffset o = some r) : r.offset = o := by
  simpa using List.find?_some h

theorem mem_allRegs (r : Reg) : r ∈ allRegs := by
  cases r <;> simp [allRegs, List.mem_finRange]

theorem Reg.offset_facts (r : Reg) : r.offset % 4 = 0 ∧ r.offset ≤ 0xFFF := by
  cases r with
  | widx k | din k | dout k => simp only [Reg.offset]; omega
  | _ => decide

/-- The register at BASE + offset answers there (20_memory.md R61). -/
@[simp] theorem accessReg_addr (r : Reg) : accessReg r.addr 32 = some r := by
  obtain ⟨h1, h2⟩ := r.offset_facts
  have h : r.addr - Config.base = r.offset := by simp [Reg.addr]
  unfold accessReg
  rw [h, if_pos ⟨rfl, by simp [Reg.addr], h1, h2⟩, regAtOffset_offset]

/-- An access that is accepted is 32 bits wide and at the address of the register it reaches (20_memory.md R62). -/
theorem accessReg_some {a size : Nat} {r : Reg} (h : accessReg a size = some r) : size = 32 ∧ a = r.addr := by
  unfold accessReg at h
  split at h
  · rename_i hc
    have := offset_of_regAtOffset h
    exact ⟨hc.1, by unfold Reg.addr; omega⟩
  · cases h

/-- What a host write to a register can do (40_host_access.md R100). -/
theorem writeReg_cases (r : Reg) (w : Word) (s : State) :
    (r = .status ∧ writeReg r w s = { s with status := s.status.written w }) ∨
    (r.isReadOnly = true ∧ writeReg r w s = s) ∨
    (s.status.busy = true ∧ writeReg r w s = dropWrite s) ∨
    (s.status.busy = false ∧ r = .cmd ∧ writeReg r w s = issue w s) ∨
    (s.status.busy = false ∧ writeReg r w s = r.store w s) := by
  unfold writeReg
  by_cases h1 : r = .status
  · exact .inl ⟨h1, if_pos h1⟩
  · rw [if_neg h1]
    by_cases h2 : r.isReadOnly = true
    · exact .inr (.inl ⟨h2, if_pos h2⟩)
    · rw [if_neg h2]
      by_cases h3 : s.status.busy = true
      · exact .inr (.inr (.inl ⟨h3, if_pos h3⟩))
      · rw [if_neg h3]
        have h3 : s.status.busy = false := by simpa using h3
        by_cases h4 : r = .cmd
        · exact .inr (.inr (.inr (.inl ⟨h3, h4, if_pos h4⟩)))
        · exact .inr (.inr (.inr (.inr ⟨h3, if_neg h4⟩)))

/-- What a host turn can do. -/
theorem hostTurn_cases (acc : Access) (s : State) :
    (¬ acc.accepted ∧ hostTurn acc s = .fault (.busError acc)) ∨
    (∃ r w, acc = .write r.addr 32 w ∧
      hostTurn acc s = .next { writeReg r w s with bus := .written }) ∨
    (∃ r, acc = .read r.addr 32 ∧
      hostTurn acc s = .next { afterRead r s with bus := .data (readReg r s) }) := by
  cases acc with
  | write a size w =>
    cases h : accessReg a size with
    | none => exact .inl ⟨by simp [Access.accepted, h], by simp [hostTurn, busAccess, h]⟩
    | some r =>
      obtain ⟨rfl, rfl⟩ := accessReg_some h
      exact .inr (.inl ⟨r, w, rfl, by simp [hostTurn, busAccess]⟩)
  | read a size =>
    cases h : accessReg a size with
    | none => exact .inl ⟨by simp [Access.accepted, h], by simp [hostTurn, busAccess, h]⟩
    | some r =>
      obtain ⟨rfl, rfl⟩ := accessReg_some h
      exact .inr (.inr ⟨r, rfl, by simp [hostTurn, busAccess]⟩)

/-- A statement's write (30_encoding.md R91) is accepted and reaches its register. -/
theorem hostTurn_write (r : Reg) (w : Word) (s : State) :
    hostTurn (.write r.addr 32 w) s = .next { writeReg r w s with bus := .written } := by
  simp [hostTurn, busAccess]

/-- A statement's read (30_encoding.md R91) is accepted and reaches its register. -/
theorem hostTurn_read (r : Reg) (s : State) :
    hostTurn (.read r.addr 32) s = .next { afterRead r s with bus := .data (readReg r s) } := by
  simp [hostTurn, busAccess]

/-- A step takes the head of the agenda. -/
theorem step_cons {s : State} {t : Turn} {rest : List Turn} (h : s.agenda = t :: rest) :
    step s = runTurn t { s with agenda := rest } := by
  simp [step, nextTurn, h]

/-- Past the end of the agenda the Block moves. -/
theorem step_nil {s : State} (h : s.agenda = []) : step s = blockTurn s := by
  simp [step, nextTurn, h]

/-- Everything a step can do: a host access, a completion, a turn that nothing can be done in, or a reset. In each case
s0 is s with the agenda moved on. -/
theorem step_cases (s : State) : ∃ s0 : State, (∃ rest, s0 = { s with agenda := rest }) ∧
    ((∃ acc, step s = hostTurn acc s0) ∨ (s.status.busy = true ∧ step s = completeCurrent s0) ∨
      (s.status.busy = false ∧ step s = .next s0) ∨ step s = .next (resetTurn s0)) := by
  have block : ∀ s0 : State, s0.status = s.status → step s = blockTurn s0 →
      (s.status.busy = true ∧ step s = completeCurrent s0) ∨ (s.status.busy = false ∧ step s = .next s0) := by
    intro s0 h0 h
    rw [h, blockTurn, h0]
    cases hb : s.status.busy <;> simp
  cases h : s.agenda with
  | nil =>
    refine ⟨s, ⟨[], by cases s; simp_all⟩, ?_⟩
    rcases block s rfl (step_nil h) with hb | hb
    · exact .inr (.inl hb)
    · exact .inr (.inr (.inl hb))
  | cons t rest =>
    refine ⟨{ s with agenda := rest }, ⟨rest, rfl⟩, ?_⟩
    have hs := step_cons h
    cases t with
    | host acc => exact .inl ⟨acc, hs⟩
    | block =>
      rcases block { s with agenda := rest } rfl hs with hb | hb
      · exact .inr (.inl hb)
      · exact .inr (.inr (.inl hb))
    | reset => exact .inr (.inr (.inr hs))

end Sys2Proof.Machine
end

