-- ==== Sys2Proof/Laws/Bytes.lean ====
section
/-! SUPPORT. Big-endian byte sequences (00_scope.md R11), and the lengths of the outputs. -/

namespace Sys2Proof.Machine

@[simp] theorem beNat_nil : beNat [] = 0 := rfl

theorem beNat_foldl (bs : List Byte) : ∀ x : Nat,
    bs.foldl (fun acc b => acc * 256 + b.toNat) x = x * 256 ^ bs.length + beNat bs := by
  induction bs with
  | nil => intro x; simp [beNat]
  | cons b bs ih =>
    intro x
    simp only [List.foldl_cons, List.length_cons, beNat]
    rw [ih, ih (0 * 256 + b.toNat)]
    ring

/-- The first byte is the most significant (R11). -/
theorem beNat_cons (b : Byte) (bs : List Byte) : beNat (b :: bs) = b.toNat * 256 ^ bs.length + beNat bs := by
  rw [beNat, List.foldl_cons, beNat_foldl]; ring

theorem beNat_append (xs ys : List Byte) : beNat (xs ++ ys) = beNat xs * 256 ^ ys.length + beNat ys := by
  rw [beNat, List.foldl_append, beNat_foldl]; rfl

theorem beNat_lt (bs : List Byte) : beNat bs < 256 ^ bs.length := by
  induction bs with
  | nil => simp
  | cons b bs ih =>
    rw [beNat_cons, List.length_cons, pow_succ]
    have := b.isLt
    nlinarith [Nat.pos_of_ne_zero (pow_ne_zero bs.length (by norm_num : (256 : Nat) ≠ 0))]

@[simp] theorem beBytes_length (n v : Nat) : (beBytes n v).length = n := by simp [beBytes]

theorem beBytes_getD {n v k : Nat} (h : k < n) :
    (beBytes n v).getD k 0 = BitVec.ofNat 8 (v / 256 ^ (n - 1 - k)) := by
  simp [beBytes, List.getD_eq_getElem?_getD, h]

theorem beBytes_succ (n v : Nat) : beBytes (n + 1) v = BitVec.ofNat 8 (v / 256 ^ n) :: beBytes n v := by
  unfold beBytes
  rw [List.range_succ_eq_map, List.map_cons, List.map_map]
  refine congrArg₂ _ (by simp) (List.map_congr_left fun k _ => ?_)
  show BitVec.ofNat 8 (v / 256 ^ (n + 1 - 1 - (k + 1))) = _
  rw [show n + 1 - 1 - (k + 1) = n - 1 - k by omega]

/-- `BEbytes_n(v)` is the sequence whose `BE` is v (R11). -/
theorem beNat_beBytes (n v : Nat) : beNat (beBytes n v) = v % 256 ^ n := by
  induction n with
  | zero => simp [beBytes, Nat.mod_one]
  | succ n ih =>
    rw [beBytes_succ, beNat_cons, ih, beBytes_length, pow_succ, Nat.mod_mul]
    rw [BitVec.toNat_ofNat]
    ring

@[simp] theorem Memory.bytes_length (m : Memory) (a n : Nat) : (m.bytes a n).length = n := by
  simp [Memory.bytes]

theorem Memory.memRead_lt (m : Memory) (a n : Nat) : m.memRead a n < 256 ^ n := by
  have := beNat_lt (m.bytes a n)
  rwa [Memory.bytes_length] at this

/-- A 4-byte read, byte by byte (00_scope.md R13). -/
theorem Memory.memRead_four (m : Memory) (a : Nat) : m.memRead a 4 =
    (m.read a).toNat * 16777216 + (m.read (a + 1)).toNat * 65536 + (m.read (a + 2)).toNat * 256
      + (m.read (a + 3)).toNat := by
  simp [Memory.memRead, Memory.bytes, List.range_succ, beNat]
  ring

theorem wordChars_length (w : DictWord) : 1 ≤ (wordChars w).length ∧ (wordChars w).length ≤ 4 := by
  cases w <;> simp [wordChars]

/-- The length of a six-word text (42_encoders.md R134). -/
theorem wordText_length (idx : Vector (BitVec 11) 6) :
    11 ≤ (wordText idx).length ∧ (wordText idx).length ≤ 29 := by
  have h := fun i => wordChars_length (Config.dict i)
  have h0 := h idx[0]; have h1 := h idx[1]; have h2 := h idx[2]
  have h3 := h idx[3]; have h4 := h idx[4]; have h5 := h idx[5]
  simp only [wordText, dictChars, space, List.length_append, List.length_cons, List.length_nil]
  omega

@[simp] theorem hexText_length (v : DWord) : (hexText v).length = 16 := by
  simp [hexText, List.range_succ, hexPair]

@[simp] theorem dwordBytes_length (x : DWord) : (dwordBytes x).length = 8 := by simp [dwordBytes]

@[simp] theorem decimalText_length (r d : Nat) : (decimalText r d).length = d := by simp [decimalText]

theorem hotpText_length (snum d : Nat) (chk : Bool) :
    (hotpText snum d chk).length = if chk then d + 1 else d := by
  cases chk <;> simp [hotpText]

theorem truncated_lt (din : Memory) (off : Nat) : truncated din off < 2 ^ 31 :=
  lt_of_le_of_lt Nat.and_le_right (by norm_num)

/-- The chosen offset is 0..15 (43_hotp.md R151, R152). -/
theorem selectOffset_le {t : Int} {len : Nat} {din : Memory} {off : Nat} (h : selectOffset t len din = some off) :
    off ≤ 15 := by
  unfold selectOffset at h
  split at h
  · obtain rfl := Option.some.inj h
    rw [BitVec.toNat_and]
    exact Nat.and_le_right
  · split at h
    · obtain rfl := Option.some.inj h; omega
    · cases h

end Sys2Proof.Machine
end

