-- ==== Sys2Proof/Laws/Memory.lean ====
section
/-! SUPPORT. The byte buffers: read after write, and that every write keeps the canonical form and the bounds. -/

namespace Sys2Proof.Machine

@[simp] theorem Memory.read_nil (a : Nat) : Memory.read [] a = 0 := rfl

theorem Memory.read_cons (c : Host.Cell) (m : Memory) (a : Nat) :
    Memory.read (c :: m) a = if c.1 = a then c.2 else Memory.read m a := rfl

/-- An address that no cell lists reads 0x00. -/
theorem Memory.read_unlisted {m : Memory} {a : Nat} (h : ∀ c ∈ m, c.1 ≠ a) : Memory.read m a = 0 := by
  induction m with
  | nil => rfl
  | cons c m ih =>
    rw [Memory.read_cons, if_neg (h c (by simp))]
    exact ih fun d hd => h d (by simp [hd])

theorem Memory.read_filter_same (m : Memory) (a : Nat) :
    Memory.read (m.filter fun c => decide (c.1 ≠ a)) a = 0 :=
  Memory.read_unlisted fun c hc => by simpa using (List.mem_filter.mp hc).2

theorem Memory.read_filter_other (m : Memory) {a a' : Nat} (h : a' ≠ a) :
    Memory.read (m.filter fun c => decide (c.1 ≠ a)) a' = Memory.read m a' := by
  induction m with
  | nil => rfl
  | cons c m ih =>
    by_cases hc : c.1 = a
    · rw [List.filter_cons_of_neg (by simp [hc]), ih, Memory.read_cons, if_neg (by omega)]
    · rw [List.filter_cons_of_pos (by simp [hc]), Memory.read_cons, Memory.read_cons, ih]

/-- Inserting a cell at an address that is not listed yet makes that address read the cell. -/
theorem Memory.read_insertCell (c : Host.Cell) (m : Memory) (a : Nat) (h : ∀ d ∈ m, d.1 ≠ c.1) :
    Memory.read (Memory.insertCell c m) a = if c.1 = a then c.2 else Memory.read m a := by
  induction m with
  | nil => rfl
  | cons d m ih =>
    simp only [Memory.insertCell]
    split
    · rfl
    · have hd := h d (by simp)
      rw [Memory.read_cons, ih fun e he => h e (by simp [he]), Memory.read_cons]
      split <;> split <;> first | rfl | omega

/-- Read after write, the whole law. -/
theorem Memory.read_write (m : Memory) (a : Nat) (b : Byte) (a' : Nat) :
    Memory.read (Memory.write m a b) a' = if a = a' then b else Memory.read m a' := by
  unfold Memory.write
  by_cases hb : b = 0
  · by_cases ha : a = a'
    · subst ha; simp only [hb, if_true]; exact Memory.read_filter_same m a
    · simp only [hb, if_true, ha, if_false]; exact Memory.read_filter_other m (Ne.symm ha)
  · simp only [hb, if_false]
    rw [Memory.read_insertCell]
    · by_cases ha : a = a'
      · simp [ha]
      · simp only [ha, if_false]; exact Memory.read_filter_other m (Ne.symm ha)
    · intro d hd; simpa using (List.mem_filter.mp hd).2

@[simp] theorem Memory.read_write_same (m : Memory) (a : Nat) (b : Byte) :
    Memory.read (Memory.write m a b) a = b := by simp [Memory.read_write]

theorem Memory.read_write_other (m : Memory) {a a' : Nat} (b : Byte) (h : a ≠ a') :
    Memory.read (Memory.write m a b) a' = Memory.read m a' := by simp [Memory.read_write, h]

/-- Read after a write of consecutive bytes, the whole law. -/
theorem Memory.read_writeBytes (bs : List Byte) : ∀ (m : Memory) (a a' : Nat),
    Memory.read (Memory.writeBytes m a bs) a' =
      if a ≤ a' ∧ a' < a + bs.length then bs.getD (a' - a) 0 else Memory.read m a' := by
  induction bs with
  | nil => intro m a a'; simp [Memory.writeBytes]
  | cons b bs ih =>
    intro m a a'
    simp only [Memory.writeBytes, ih, Memory.read_write, List.length_cons]
    by_cases h : a = a'
    · subst h; simp
    · by_cases h2 : a + 1 ≤ a' ∧ a' < a + 1 + bs.length
      · rw [if_pos h2, if_pos (by omega), show a' - a = (a' - (a + 1)) + 1 by omega, List.getD_cons_succ]
      · rw [if_neg h2, if_neg h, if_neg (by omega)]

theorem Memory.writeBytes_outside {bs : List Byte} {m : Memory} {a a' : Nat} (h : a' < a ∨ a + bs.length ≤ a') :
    Memory.read (Memory.writeBytes m a bs) a' = Memory.read m a' := by
  rw [Memory.read_writeBytes, if_neg (by omega)]

/-! ### The canonical form is kept -/

theorem Memory.mem_insertCell {c d : Host.Cell} {m : Memory} :
    d ∈ Memory.insertCell c m ↔ d = c ∨ d ∈ m := by
  induction m with
  | nil => simp [Memory.insertCell]
  | cons e m ih =>
    simp only [Memory.insertCell]
    split
    · simp
    · simp only [List.mem_cons, ih]; tauto

theorem Memory.insertCell_rising {c : Host.Cell} {m : Memory} (hm : m.Pairwise (fun c d => c.1 < d.1))
    (h : ∀ d ∈ m, d.1 ≠ c.1) : (Memory.insertCell c m).Pairwise (fun c d => c.1 < d.1) := by
  induction m with
  | nil => simp [Memory.insertCell]
  | cons e m ih =>
    obtain ⟨he, hm'⟩ := List.pairwise_cons.mp hm
    simp only [Memory.insertCell]
    split
    · rename_i hlt
      refine List.pairwise_cons.mpr ⟨fun d hd => ?_, hm⟩
      rcases List.mem_cons.mp hd with rfl | hd
      · exact hlt
      · exact lt_trans hlt (he d hd)
    · have hne := h e (by simp)
      refine List.pairwise_cons.mpr ⟨fun d hd => ?_, ih hm' fun d hd => h d (by simp [hd])⟩
      rcases Memory.mem_insertCell.mp hd with rfl | hd
      · omega
      · exact he d hd

theorem Memory.write_wf {m : Memory} (h : m.wf) (a : Nat) (b : Byte) : (Memory.write m a b).wf := by
  have hf : (m.filter fun c => decide (c.1 ≠ a)).Pairwise (fun c d => c.1 < d.1) := h.1.filter _
  have h0 : ∀ c ∈ m.filter (fun c => decide (c.1 ≠ a)), c.2 ≠ 0 := fun c hc => h.2 c (List.mem_filter.mp hc).1
  unfold Memory.write
  by_cases hb : b = 0
  · simp only [hb, if_true]; exact ⟨hf, h0⟩
  · simp only [hb, if_false]
    refine ⟨Memory.insertCell_rising hf fun d hd => by simpa using (List.mem_filter.mp hd).2, fun c hc => ?_⟩
    rcases Memory.mem_insertCell.mp hc with rfl | hc
    · exact hb
    · exact h0 c hc

theorem Memory.write_below {m : Memory} {n a : Nat} (h : m.below n) (ha : a < n) (b : Byte) :
    (Memory.write m a b).below n := by
  intro c hc
  unfold Memory.write at hc
  by_cases hb : b = 0
  · simp only [hb, if_true] at hc; exact h c (List.mem_filter.mp hc).1
  · simp only [hb, if_false] at hc
    rcases Memory.mem_insertCell.mp hc with rfl | hc
    · exact ha
    · exact h c (List.mem_filter.mp hc).1

theorem Memory.writeBytes_wf (bs : List Byte) : ∀ {m : Memory} (a : Nat), m.wf → (Memory.writeBytes m a bs).wf := by
  induction bs with
  | nil => intro m a h; exact h
  | cons b bs ih => intro m a h; exact ih (a + 1) (Memory.write_wf h a b)

theorem Memory.writeBytes_below (bs : List Byte) : ∀ {m : Memory} {n : Nat} (a : Nat), m.below n →
    a + bs.length ≤ n → (Memory.writeBytes m a bs).below n := by
  induction bs with
  | nil => intro m n a h _; exact h
  | cons b bs ih =>
    intro m n a h hl
    simp only [List.length_cons] at hl
    exact ih (a + 1) (Memory.write_below h (by omega) b) (by omega)

/-- Every write of bytes inside a buffer keeps it a buffer. -/
theorem Memory.writeBytes_buffer {bs : List Byte} {m : Memory} {n a : Nat} (h : Memory.Buffer m n)
    (hl : a + bs.length ≤ n) : Memory.Buffer (Memory.writeBytes m a bs) n :=
  ⟨Memory.writeBytes_wf bs a h.canonical, Memory.writeBytes_below bs a h.inside hl⟩

/-- The empty buffer, as after reset. -/
theorem Memory.nil_buffer (n : Nat) : Memory.Buffer [] n := ⟨⟨List.Pairwise.nil, by simp⟩, by intro c hc; cases hc⟩

/-- A listed cell is what its address reads. -/
theorem Memory.read_of_mem {m : Memory} (h : m.Pairwise (fun c d => c.1 < d.1)) {c : Host.Cell} (hc : c ∈ m) :
    Memory.read m c.1 = c.2 := by
  induction m with
  | nil => cases hc
  | cons d m ih =>
    obtain ⟨hd, hm⟩ := List.pairwise_cons.mp h
    rcases List.mem_cons.mp hc with rfl | hc
    · simp [Memory.read_cons]
    · have := hd c hc
      rw [Memory.read_cons, if_neg (by omega), ih hm hc]

/-- The canonical form is canonical: buffers that read alike are equal lists. -/
theorem Memory.eq_of_read {m m' : Memory} (h : m.wf) (h' : m'.wf)
    (hr : ∀ a, Memory.read m a = Memory.read m' a) : m = m' := by
  have key : ∀ {x y : Memory}, x.wf → y.wf → (∀ a, Memory.read x a = Memory.read y a) → ∀ c ∈ x, c ∈ y := by
    intro x y hx hy hxy c hc
    by_contra hn
    have h1 : Memory.read y c.1 = c.2 := by rw [← hxy, Memory.read_of_mem hx.1 hc]
    have h2 : ∀ d ∈ y, d.1 ≠ c.1 := by
      intro d hd he
      have := Memory.read_of_mem hy.1 hd
      rw [he, h1] at this
      exact hn (by rwa [show c = d from Prod.ext he.symm this])
    rw [Memory.read_unlisted h2] at h1
    exact hx.2 c hc h1.symm
  have asymm : ∀ c d : Host.Cell, c ∈ m → d ∈ m' → c.1 < d.1 → d.1 < c.1 → c = d := fun _ _ _ _ a b => by omega
  refine List.Perm.eq_of_pairwise (le := fun c d => c.1 < d.1) asymm h.1 h'.1 ?_
  have nodup : ∀ {x : Memory}, x.wf → x.Nodup := fun hx =>
    hx.1.imp fun {c d} hlt => by rintro rfl; exact lt_irrefl _ hlt
  exact (List.perm_ext_iff_of_nodup (nodup h) (nodup h')).mpr fun c =>
    ⟨key h h' hr c, key h' h (fun a => (hr a).symm) c⟩


/-! ### The output buffer after a completion -/

theorem Memory.mem_ofBytes (bs : List Byte) : ∀ (a : Nat) {c : Host.Cell}, c ∈ Memory.ofBytes a bs →
    a ≤ c.1 ∧ c.1 < a + bs.length ∧ c.2 ≠ 0 := by
  induction bs with
  | nil => intro a c h; cases h
  | cons b bs ih =>
    intro a c h
    simp only [Memory.ofBytes] at h
    split at h
    · have := ih (a + 1) h; simp only [List.length_cons]; exact ⟨by omega, by omega, this.2.2⟩
    · rename_i hb
      rcases List.mem_cons.mp h with rfl | h
      · exact ⟨le_refl _, by simp, hb⟩
      · have := ih (a + 1) h; simp only [List.length_cons]; exact ⟨by omega, by omega, this.2.2⟩

theorem Memory.ofBytes_rising (bs : List Byte) : ∀ a : Nat,
    (Memory.ofBytes a bs).Pairwise (fun c d => c.1 < d.1) := by
  induction bs with
  | nil => intro a; exact List.Pairwise.nil
  | cons b bs ih =>
    intro a
    simp only [Memory.ofBytes]
    split
    · exact ih (a + 1)
    · refine List.pairwise_cons.mpr ⟨fun d hd => ?_, ih (a + 1)⟩
      have := (Memory.mem_ofBytes bs (a + 1) hd).1
      show a < d.1
      omega

theorem Memory.read_ofBytes (bs : List Byte) : ∀ a a' : Nat, Memory.read (Memory.ofBytes a bs) a' =
    if a ≤ a' ∧ a' < a + bs.length then bs.getD (a' - a) 0 else 0 := by
  induction bs with
  | nil => intro a a'; simp [Memory.ofBytes]
  | cons b bs ih =>
    intro a a'
    have step : a ≠ a' → Memory.read (Memory.ofBytes a (b :: bs)) a' = Memory.read (Memory.ofBytes (a + 1) bs) a' := by
      intro h
      simp only [Memory.ofBytes]
      split
      · rfl
      · rw [Memory.read_cons, if_neg h]
    by_cases h : a = a'
    · subst h
      simp only [Memory.ofBytes, List.length_cons]
      split
      · rename_i hb
        rw [Memory.read_unlisted fun c hc => by have := (Memory.mem_ofBytes bs (a + 1) hc).1; omega]
        simp [hb]
      · rw [Memory.read_cons, if_pos rfl, if_pos (by omega)]; simp
    · rw [step h, ih]
      simp only [List.length_cons]
      by_cases h2 : a + 1 ≤ a' ∧ a' < a + 1 + bs.length
      · rw [if_pos h2, if_pos (by omega), show a' - a = (a' - (a + 1)) + 1 by omega, List.getD_cons_succ]
      · rw [if_neg h2, if_neg (by omega)]

theorem Memory.read_append (x y : Memory) (a : Nat) :
    Memory.read (x ++ y) a = if ∃ c ∈ x, c.1 = a then Memory.read x a else Memory.read y a := by
  induction x with
  | nil => simp
  | cons c x ih =>
    rw [List.cons_append, Memory.read_cons, Memory.read_cons]
    by_cases h : c.1 = a
    · simp [h]
    · rw [if_neg h, if_neg h, ih]; simp [h]

theorem Memory.read_filter_above (m : Memory) (n a : Nat) :
    Memory.read (m.filter fun c => decide (n ≤ c.1)) a = if n ≤ a then Memory.read m a else 0 := by
  induction m with
  | nil => simp
  | cons c m ih =>
    by_cases hc : n ≤ c.1
    · rw [List.filter_cons_of_pos (by simp [hc]), Memory.read_cons, Memory.read_cons, ih]
      split
      · rw [if_pos (by omega)]
      · rfl
    · rw [List.filter_cons_of_neg (by simp [hc]), ih, Memory.read_cons]
      split
      · rw [if_neg (by omega)]
      · rfl

theorem outputBytes_length {out : List Byte} (h : out.length ≤ 32) : (outputBytes out).length = 32 := by
  simp [outputBytes]; omega

theorem outputBytes_getD {out : List Byte} (a : Nat) : (outputBytes out).getD a 0 = out.getD a 0 := by
  unfold outputBytes
  by_cases h : a < out.length
  · simp [List.getD_eq_getElem?_getD, List.getElem?_append_left h]
  · simp only [List.getD_eq_getElem?_getD, List.getElem?_append_right (Nat.le_of_not_lt h), List.getElem?_replicate]
    rw [List.getElem?_eq_none (Nat.le_of_not_lt h)]
    split <;> rfl

/-- What DOUT reads after a completion: the output, then 0x00 up to byte 31 (60_exceptions.md R184, R185). -/
theorem Memory.read_withOutput {m : Memory} {out : List Byte} (h : out.length ≤ 32) (a : Nat) :
    Memory.read (m.withOutput out) a = if a < 32 then out.getD a 0 else Memory.read m a := by
  unfold Memory.withOutput
  rw [Memory.read_append, Memory.read_ofBytes, Memory.read_filter_above, outputBytes_length h, outputBytes_getD]
  by_cases ha : a < 32
  · rw [if_pos (⟨by omega, by omega⟩ : 0 ≤ a ∧ a < 0 + 32), if_neg (by omega : ¬ 32 ≤ a), if_pos ha]
    split
    · rfl
    · rename_i hn
      have h0 := Memory.read_unlisted (m := Memory.ofBytes 0 (outputBytes out)) (a := a)
        fun c hc he => hn ⟨c, hc, he⟩
      rw [Memory.read_ofBytes, outputBytes_length h, outputBytes_getD, if_pos ⟨Nat.zero_le _, by omega⟩] at h0
      exact h0.symm
  · rw [if_neg ha, if_pos (by omega : 32 ≤ a), if_neg]
    rintro ⟨c, hc, rfl⟩
    have := (Memory.mem_ofBytes _ _ hc).2.1
    rw [outputBytes_length h] at this
    omega

/-- A completion's write leaves a buffer of 32 bytes a buffer of 32 bytes. -/
theorem Memory.withOutput_buffer {m : Memory} {out : List Byte} (hm : Memory.Buffer m 32) (h : out.length ≤ 32) :
    Memory.Buffer (m.withOutput out) 32 := by
  have hf : m.filter (fun c => decide (32 ≤ c.1)) = [] :=
    List.filter_eq_nil_iff.mpr fun c hc => by have := hm.inside c hc; simp; omega
  unfold Memory.withOutput
  rw [hf, List.append_nil]
  refine ⟨⟨Memory.ofBytes_rising _ _, fun c hc => (Memory.mem_ofBytes _ _ hc).2.2⟩, fun c hc => ?_⟩
  have := (Memory.mem_ofBytes _ _ hc).2.1
  rw [outputBytes_length h] at this
  omega

theorem Memory.withOutput_wf {m : Memory} {out : List Byte} (hm : m.wf) (h : out.length ≤ 32) :
    (m.withOutput out).wf := by
  have hb := outputBytes_length h
  refine ⟨List.pairwise_append.mpr ⟨Memory.ofBytes_rising _ _, hm.1.filter _, fun c hc d hd => ?_⟩, fun c hc => ?_⟩
  · have h1 := (Memory.mem_ofBytes _ _ hc).2.1
    have h2 : 32 ≤ d.1 := by simpa using (List.mem_filter.mp hd).2
    omega
  · rcases List.mem_append.mp hc with hc | hc
    · exact (Memory.mem_ofBytes _ _ hc).2.2
    · exact hm.2 c (List.mem_filter.mp hc).1

/-- A later completion's output hides an earlier one's. -/
theorem Memory.withOutput_withOutput {m : Memory} {out out' : List Byte} (h : out.length ≤ 32) :
    (m.withOutput out).withOutput out' = m.withOutput out' := by
  unfold Memory.withOutput
  rw [List.filter_append, List.filter_filter]
  have : (Memory.ofBytes 0 (outputBytes out)).filter (fun c => decide (32 ≤ c.1)) = [] :=
    List.filter_eq_nil_iff.mpr fun c hc => by
      have := (Memory.mem_ofBytes _ _ hc).2.1
      rw [outputBytes_length h] at this
      simp; omega
  rw [this]; simp

end Sys2Proof.Machine
end

