-- ==== Sys2Proof/Laws/Completion.lean ====
section
/-! SUPPORT. What a command's completion can do, said once: an error completion with an error OTPPD raises, or a success
completion after the command's own register writes (60_exceptions.md R184, R185). -/

namespace Sys2Proof.Machine

/-- The error kinds that OTPPD raises (60_exceptions.md R180). -/
def ErrorKind.raised : ErrorKind → Prop
  | .invalidPassPhraseLength | .invalidSeed | .invalidChallengeFormat => False
  | .unsupportedAlgorithm | .invalidOffset | .invalidTimeInput | .unsupportedDigestWidth | .illegalCommand
  | .noValue | .invalidParameter => True

theorem ErrorKind.code_produced {k : ErrorKind} (h : k.raised) : producedCode k.code ∧ k.code ≠ 0 := by
  cases k <;> first | exact h.elim | exact ⟨Or.inr (by decide), by decide⟩

/-- The registers a command writes on success, beside DOUT, DOUT_LEN and STATUS (30_encoding.md R84). -/
def OwnWrites : Instr → State → State → Prop
  | .fold _, s, u => ∃ x, u = s.withFolded x
  | .wordEnc, s, u => ∃ p idx, u = s.withWords p idx
  | .hexEnc, s, u => u = s
  | .ctrMsg, s, u => u = s
  | .hotpTrunc _, s, u => ∃ n, u = s.withSnum n
  | .totpCtr, s, u => ∃ c, u = s.withCounter c

/-- Everything a command can do at its completion. -/
theorem exec_cases (i : Instr) (s : State) :
    (∃ k : ErrorKind, k.raised ∧ exec i s = .next (errorComplete k s)) ∨
    (∃ out u, out.length ≤ 32 ∧ OwnWrites i s u ∧ exec i s = .next (complete out u)) := by
  cases i with
  | fold alg =>
    cases alg with
    | md4 | md5 => exact .inr ⟨[], s.withFolded (fold128 s.din.read), by simp, ⟨_, rfl⟩, rfl⟩
    | sha1 => exact .inr ⟨[], s.withFolded (fold160 s.din.read), by simp, ⟨_, rfl⟩, rfl⟩
    | sha256 | sha512 => exact .inl ⟨.unsupportedDigestWidth, trivial, rfl⟩
    | reserved c => exact .inl ⟨.unsupportedAlgorithm, trivial, rfl⟩
  | wordEnc =>
    by_cases h : s.status.vvalid = false
    · exact .inl ⟨.noValue, trivial, if_pos h⟩
    · exact .inr ⟨_, _, (wordText_length _).2.trans (by omega), ⟨_, _, rfl⟩, if_neg h⟩
  | hexEnc =>
    by_cases h : s.status.vvalid = false
    · exact .inl ⟨.noValue, trivial, if_pos h⟩
    · exact .inr ⟨hexText s.v, s, by simp, rfl, if_neg h⟩
  | ctrMsg => exact .inr ⟨dwordBytes s.counter, s, by simp, rfl, rfl⟩
  | hotpTrunc alg =>
    show (∃ k : ErrorKind, k.raised ∧ execHotpTrunc alg s = _) ∨ (∃ out u, _ ∧ _ ∧ execHotpTrunc alg s = _)
    unfold execHotpTrunc
    split
    · exact .inl ⟨.unsupportedAlgorithm, trivial, rfl⟩
    · split
      · exact .inl ⟨.invalidParameter, trivial, rfl⟩
      · rename_i hd
        split
        · exact .inl ⟨.invalidOffset, trivial, rfl⟩
        · refine .inr ⟨_, _, ?_, ⟨_, rfl⟩, rfl⟩
          rw [hotpText_length]
          split <;> omega
  | totpCtr =>
    show (∃ k : ErrorKind, k.raised ∧ execTotpCtr s = _) ∨ (∃ out u, _ ∧ _ ∧ execTotpCtr s = _)
    unfold execTotpCtr
    split
    · exact .inl ⟨.invalidParameter, trivial, rfl⟩
    · split
      · exact .inl ⟨.invalidTimeInput, trivial, rfl⟩
      · exact .inr ⟨_, _, by simp, ⟨_, rfl⟩, rfl⟩

/-- The completion of a command in flight, legal or not. -/
theorem completeCurrent_cases (s : State) :
    (∃ k : ErrorKind, k.raised ∧ completeCurrent s = .next (errorComplete k s)) ∨
    (∃ i out u, decode s.cur = .ok i ∧ out.length ≤ 32 ∧ OwnWrites i s u ∧
      completeCurrent s = .next (complete out u)) := by
  unfold completeCurrent
  cases hd : decode s.cur with
  | error e => exact .inl ⟨.illegalCommand, trivial, rfl⟩
  | ok i =>
    rcases exec_cases i s with ⟨k, hk, he⟩ | ⟨out, u, hl, hu, he⟩
    · exact .inl ⟨k, hk, he⟩
    · exact .inr ⟨i, out, u, rfl, hl, hu, he⟩

end Sys2Proof.Machine
end

