-- ==== Sys2Proof/Laws/Decode.lean ====
section
/-! SUPPORT. The fields of a command word and the algorithm codes. -/

namespace Sys2Proof

@[simp] theorem opField_commandWord (op : BitVec 4) (alg : BitVec 3) : opField (commandWord op alg) = op := by
  revert op alg; decide

@[simp] theorem algField_commandWord (op : BitVec 4) (alg : BitVec 3) : algField (commandWord op alg) = alg := by
  revert op alg; decide

@[simp] theorem rsvField_commandWord (op : BitVec 4) (alg : BitVec 3) : rsvField (commandWord op alg) = 0 := by
  revert op alg; decide

theorem Alg.ofCode_code {a : Alg} (h : a.wf = true) : Alg.ofCode a.code = a := by
  cases a with
  | reserved c => revert c; decide
  | _ => rfl

theorem Alg.code_ofCode (c : BitVec 3) : (Alg.ofCode c).code = c := by revert c; decide

theorem Alg.wf_ofCode (c : BitVec 3) : (Alg.ofCode c).wf = true := by revert c; decide

end Sys2Proof
end

