-- ==== Sys2Proof/Laws/Dictionary.lean ====
section
/-! SUPPORT. DICT is an injective dictionary, and it may be any (42_encoders.md R133; log 8). -/

namespace Sys2Proof

theorem indexWord_injective : Function.Injective indexWord := by
  intro i j h
  simp only [indexWord, DictWord.three.injEq, Fin.ext_iff, Fin.val_ofNat] at h
  exact BitVec.eq_of_toNat_eq (by omega)

theorem Config.dict_injective : Config.DictInjective := fun _ _ h => indexWord_injective (Config.wordOrder.injective h)

/-- No injective dictionary is left out: each is what `Config.dict` would be under some permutation. -/
theorem Config.every_dictionary (d : BitVec 11 → DictWord) (h : Function.Injective d) :
    ∃ order : Equiv.Perm DictWord, ∀ i, d i = order (indexWord i) := by
  classical
  let e : Set.range indexWord ≃ Set.range d :=
    (Equiv.ofInjective indexWord indexWord_injective).symm.trans (Equiv.ofInjective d h)
  refine ⟨e.extendSubtype, fun i => ?_⟩
  rw [Equiv.extendSubtype_apply_of_mem e _ (Set.mem_range_self i)]
  have hi : (⟨indexWord i, Set.mem_range_self i⟩ : Set.range indexWord)
      = Equiv.ofInjective indexWord indexWord_injective i := rfl
  change d i = e ⟨indexWord i, Set.mem_range_self i⟩
  rw [hi]
  simp [e]

end Sys2Proof
end

