-- ==== Sys2Proof/Laws/Operands.lean ====
section
/-! SUPPORT. The operands (30_encoding.md R89) as numbers, what leaves them alone, and the two functions that choose a
HOTP_TRUNC's window. -/

namespace Sys2Proof.Machine

@[simp] theorem complete_digits (out : List Byte) (s : State) : (complete out s).digits = s.digits := rfl
@[simp] theorem complete_chk (out : List Byte) (s : State) : (complete out s).chk = s.chk := rfl
@[simp] theorem complete_toff (out : List Byte) (s : State) : (complete out s).toff = s.toff := rfl
@[simp] theorem complete_stepSeconds (out : List Byte) (s : State) :
    (complete out s).stepSeconds = s.stepSeconds := rfl
@[simp] theorem complete_effectiveTime (out : List Byte) (s : State) :
    (complete out s).effectiveTime = s.effectiveTime := rfl

@[simp] theorem errorComplete_digits (k : ErrorKind) (s : State) : (errorComplete k s).digits = s.digits := rfl
@[simp] theorem errorComplete_chk (k : ErrorKind) (s : State) : (errorComplete k s).chk = s.chk := rfl
@[simp] theorem errorComplete_toff (k : ErrorKind) (s : State) : (errorComplete k s).toff = s.toff := rfl
@[simp] theorem errorComplete_stepSeconds (k : ErrorKind) (s : State) :
    (errorComplete k s).stepSeconds = s.stepSeconds := rfl
@[simp] theorem errorComplete_effectiveTime (k : ErrorKind) (s : State) :
    (errorComplete k s).effectiveTime = s.effectiveTime := rfl

@[simp] theorem State.withSnum_digits (s : State) (n : BitVec 31) : (s.withSnum n).digits = s.digits := rfl
@[simp] theorem State.withSnum_chk (s : State) (n : BitVec 31) : (s.withSnum n).chk = s.chk := rfl
@[simp] theorem State.withSnum_toff (s : State) (n : BitVec 31) : (s.withSnum n).toff = s.toff := rfl
@[simp] theorem State.withCounter_stepSeconds (s : State) (c : DWord) :
    (s.withCounter c).stepSeconds = s.stepSeconds := rfl
@[simp] theorem State.withCounter_effectiveTime (s : State) (c : DWord) :
    (s.withCounter c).effectiveTime = s.effectiveTime := rfl

/-- DIGITS as a number. -/
theorem State.digits_eq (s : State) : s.digits = s.hotpCfg.toNat % 16 := by
  simp [State.digits, BitVec.extractLsb'_toNat]

theorem State.toff_byte (s : State) : (s.hotpCfg.extractLsb' 8 8).toNat = s.hotpCfg.toNat / 256 % 256 := by
  simp [BitVec.extractLsb'_toNat, Nat.shiftRight_eq_div_pow]

/-- TOFF is -1 when its byte is 255. -/
theorem State.toff_dynamic (s : State) : s.toff = -1 ↔ s.hotpCfg.toNat / 256 % 256 = 255 := by
  unfold State.toff
  rw [BitVec.toInt_eq_toNat_cond, State.toff_byte]
  split <;> omega

/-- TOFF is 0..15 when its byte is, and then they are equal. -/
theorem State.toff_fixed (s : State) : (0 ≤ s.toff ∧ s.toff ≤ 15) ↔ s.hotpCfg.toNat / 256 % 256 ≤ 15 := by
  unfold State.toff
  rw [BitVec.toInt_eq_toNat_cond, State.toff_byte]
  split <;> omega

theorem State.toff_toNat {s : State} (h : s.hotpCfg.toNat / 256 % 256 ≤ 15) :
    s.toff.toNat = s.hotpCfg.toNat / 256 % 256 := by
  unfold State.toff
  rw [BitVec.toInt_eq_toNat_cond, State.toff_byte, if_pos (by omega)]
  exact Int.toNat_natCast _

/-- `select_offset` for a MAC of at least 20 bytes, in terms of TOFF's byte (43_hotp.md R152). -/
theorem selectOffset_eq (s : State) {len : Nat} (h : 20 ≤ len) : selectOffset s.toff len s.din =
    if s.hotpCfg.toNat / 256 % 256 = 255 then some ((s.din.read (len - 1)).toNat % 16)
    else if s.hotpCfg.toNat / 256 % 256 ≤ 15 then some (s.hotpCfg.toNat / 256 % 256) else none := by
  unfold selectOffset
  by_cases h1 : s.hotpCfg.toNat / 256 % 256 = 255
  · rw [if_pos (s.toff_dynamic.2 h1), if_pos h1, BitVec.toNat_and]
    exact congrArg some (Nat.and_two_pow_sub_one_eq_mod _ 4)
  · rw [if_neg (fun x => h1 (s.toff_dynamic.1 x)), if_neg h1]
    by_cases h2 : s.hotpCfg.toNat / 256 % 256 ≤ 15
    · have := s.toff_fixed.2 h2
      rw [if_pos ⟨this.1, this.2, by omega⟩, if_pos h2, State.toff_toNat h2]
    · rw [if_neg (fun x => h2 (s.toff_fixed.1 ⟨x.1, x.2.1⟩)), if_neg h2]

/-- The truncated value, byte by byte: the top bit of the first byte is dropped (43_hotp.md R152). -/
theorem truncated_eq (m : Memory) (off : Nat) : truncated m off =
    ((m.read off).toNat % 128) * 16777216 + (m.read (off + 1)).toNat * 65536 + (m.read (off + 2)).toNat * 256
      + (m.read (off + 3)).toNat := by
  unfold truncated
  rw [show (0x7FFFFFFF : Nat) = 2 ^ 31 - 1 by norm_num, Nat.and_two_pow_sub_one_eq_mod, Memory.memRead_four]
  have h0 := (m.read off).isLt
  have h1 := (m.read (off + 1)).isLt
  have h2 := (m.read (off + 2)).isLt
  have h3 := (m.read (off + 3)).isLt
  omega

/-- The number of two bit vectors side by side. -/
theorem toNat_append_eq {n m : Nat} (x : BitVec n) (y : BitVec m) : (x ++ y).toNat = x.toNat * 2 ^ m + y.toNat := by
  rw [BitVec.toNat_append, ← Nat.shiftLeft_add_eq_or_of_lt (BitVec.isLt _), Nat.shiftLeft_eq]

end Sys2Proof.Machine
end

