-- ==== Sys2Proof/Laws/PerInstr.lean ====
section
/-! SUPPORT. Statements made per instruction: the word of every well-formed command has the match and mask that
spec/opcode_table.json gives its row. -/

namespace Sys2Proof.Laws

/-- The `mask` of a command's row of spec/opcode_table.json. -/
def tableMask : Instr → Word
  | .fold _ => 0xFFFFFF8F
  | .wordEnc => 0xFFFFFFFF
  | .hexEnc => 0xFFFFFFFF
  | .ctrMsg => 0xFFFFFFFF
  | .hotpTrunc _ => 0xFFFFFF8F
  | .totpCtr => 0xFFFFFFFF

/-- The `match` of a command's row of spec/opcode_table.json. -/
def tableMatch : Instr → Word
  | .fold _ => 0x00000001
  | .wordEnc => 0x00000002
  | .hexEnc => 0x00000003
  | .ctrMsg => 0x00000004
  | .hotpTrunc _ => 0x00000005
  | .totpCtr => 0x00000006

/-- The word a well-formed command encodes to, under its row's mask, is its row's match. -/
def TableMatch.Statement (i : Instr) : Prop :=
  i.WellFormed → encode i &&& tableMask i = tableMatch i

theorem commandWord_masked (op : BitVec 4) (alg : BitVec 3) :
    commandWord op alg &&& 0xFFFFFF8F = commandWord op 0 := by
  revert op alg; decide

theorem TableMatch.fold (alg : Alg) : TableMatch.Statement (.fold alg) := fun _ => commandWord_masked 0x1 alg.code

theorem TableMatch.wordEnc : TableMatch.Statement .wordEnc := fun _ => by decide

theorem TableMatch.hexEnc : TableMatch.Statement .hexEnc := fun _ => by decide

theorem TableMatch.ctrMsg : TableMatch.Statement .ctrMsg := fun _ => by decide

theorem TableMatch.hotpTrunc (alg : Alg) : TableMatch.Statement (.hotpTrunc alg) :=
  fun _ => commandWord_masked 0x5 alg.code

theorem TableMatch.totpCtr : TableMatch.Statement .totpCtr := fun _ => by decide

end Sys2Proof.Laws
end

