-- ==== Sys2Proof/Laws/Run.lean ====
section
/-! SUPPORT. Runs of several steps, and the induction over them said once. -/

namespace Sys2Proof.Machine

@[simp] theorem run_zero (s : State) : core.run 0 s = .next s := rfl

/-- A run whose first step answers a next state goes on from there. -/
theorem run_succ {s s' : State} (k : Nat) (h : step s = .next s') : core.run (k + 1) s = core.run k s' := by
  simp only [Host.Core.run]
  rw [show core.step s = .next s' from h]

/-- Two runs, one after the other. -/
theorem run_add {j k : Nat} : ∀ {s t : State}, core.run j s = .next t → core.run (j + k) s = core.run k t := by
  induction j with
  | zero => intro s t h; cases h; rw [Nat.zero_add]
  | succ j ih =>
    intro s t h
    cases hs : step s with
    | next s' => rw [run_succ j hs] at h; rw [Nat.succ_add, run_succ (j + k) hs]; exact ih h
    | fault f =>
      simp only [Host.Core.run] at h
      rw [show core.step s = .fault f from hs] at h; cases h
    | refused r =>
      simp only [Host.Core.run] at h
      rw [show core.step s = .refused r from hs] at h; cases h

/-- What holds of a state and is kept by every step holds at the end of every run. -/
theorem run_keeps {P : State → Prop} (hstep : ∀ s t, P s → step s = .next t → P t) :
    ∀ (k : Nat) {s t : State}, P s → core.run k s = .next t → P t := by
  intro k
  induction k with
  | zero => intro s t hs h; cases h; exact hs
  | succ k ih =>
    intro s t hs h
    cases hn : step s with
    | next s' => rw [run_succ k hn] at h; exact ih (hstep s s' hs hn) h
    | fault f =>
      simp only [Host.Core.run] at h
      rw [show core.step s = .fault f from hn] at h; cases h
    | refused r =>
      simp only [Host.Core.run] at h
      rw [show core.step s = .refused r from hn] at h; cases h

end Sys2Proof.Machine
end

