-- ==== Sys2Proof/Tests/Slice0.lean ====
section
/-! SUPPORT. The model's own tests. Expected results are the spec's: the encodings of 30_encoding.md R80 to R86, the test
vectors of 95_test_vectors.md (named in each comment), and the access rules. Then one witness for each statement that has
hypotheses. -/

namespace Sys2Proof.Tests

open Sys2Proof Sys2Proof.Machine Sys2Proof.Claims

/-! ### Helpers -/

/-- The reset state with these bytes from DIN[0] up. -/
def withDin (bs : List Byte) : State := { State.reset with din := Memory.ofBytes 0 bs }

/-- The reset state with this FoldedValue. -/
def withValue (v : DWord) : State := State.reset.withFolded v

/-- s with the word w in flight. -/
def inFlight (w : Word) (s : State) : State := issue w s

/-- One thing about the next state. -/
def look {α : Type} (o : Outcome) (f : State → α) : Option α :=
  match o with
  | .next t => some (f t)
  | .fault _ => none
  | .refused _ => none

/-- STATUS after a step. -/
def statusAfter (o : Outcome) : Option Word := look o fun t => t.status.word

/-- DOUT words 0 and 1, DOUT_LEN and STATUS after a step. -/
def outputAfter (o : Outcome) : Option (Word × Word × Nat × Word) :=
  look o fun t => (t.dout.word 0, t.dout.word 1, t.doutLen.toNat, t.status.word)

/-- The MAC of T-S1. -/
def macZero : List Byte :=
  [0xcc, 0x93, 0xcf, 0x18, 0x50, 0x8d, 0x94, 0x93, 0x4c, 0x64, 0xb6, 0x5d, 0x8b, 0xa7, 0x66, 0x7f, 0xb7, 0xcd, 0xe4,
    0xb0]

/-- The reset state with the MAC of T-S1 in DIN and this HOTP_CFG. -/
def withCfg (w : Word) : State := { withDin macZero with hotpCfg := w }

/-! ### Well-formed terms -/

theorem test_wf_reserved_alg_named_code : (Instr.fold (.reserved 2)).wf = false := by decide

theorem test_wf_reserved_alg_zero : (Instr.hotpTrunc (.reserved 0)).wf = false := by decide

theorem test_wf_reserved_alg_four : (Instr.fold (.reserved 4)).wf = false := by decide

theorem test_wf_reserved_alg_five : (Instr.fold (.reserved 5)).wf = true := by decide

/-! ### Decoding: each word is written as RSV (31:7), ALG (6:4), OP (3:0) -/

theorem test_decode_fold : decode 0b0000000000000000000000000_010_0001#32 = .ok (.fold .sha1) := by decide

theorem test_decode_fold_reserved : decode 0b0000000000000000000000000_111_0001#32 = .ok (.fold (.reserved 7)) := by
  decide

theorem test_decode_wordEnc : decode 0b0000000000000000000000000_000_0010#32 = .ok .wordEnc := by decide

theorem test_decode_hexEnc : decode 0b0000000000000000000000000_000_0011#32 = .ok .hexEnc := by decide

theorem test_decode_ctrMsg : decode 0b0000000000000000000000000_000_0100#32 = .ok .ctrMsg := by decide

theorem test_decode_hotpTrunc : decode 0b0000000000000000000000000_011_0101#32 = .ok (.hotpTrunc .sha256) := by decide

theorem test_decode_hotpTrunc_md4 : decode 0b0000000000000000000000000_000_0101#32 = .ok (.hotpTrunc .md4) := by
  decide

theorem test_decode_totpCtr : decode 0b0000000000000000000000000_000_0110#32 = .ok .totpCtr := by decide

/-- T-E1, T-E2. -/
theorem test_decode_reserved_op :
    decode 0x00000000 = .error .reservedOp ∧ decode 0x00000007 = .error .reservedOp ∧
      decode 0x0000000F = .error .reservedOp := by decide

/-- T-E3. -/
theorem test_decode_alg_on_algless :
    decode 0x00000012 = .error .algOnAlgless ∧ decode 0x00000023 = .error .algOnAlgless ∧
      decode 0x00000044 = .error .algOnAlgless ∧ decode 0x00000076 = .error .algOnAlgless := by decide

/-- T-E4, T-E5, T-E6. -/
theorem test_decode_reserved_bits :
    decode 0x000000A5 = .error .reservedBits ∧ decode 0x80000025 = .error .reservedBits ∧
      decode 0xFFFFFFFF = .error .reservedBits := by decide

theorem test_decodeTableWord :
    decodeTableWord 32 0x00000021 = some (.fold .sha1) ∧ decodeTableWord 32 0x80000021 = none ∧
      decodeTableWord 32 0x00000006 = some .totpCtr := by decide

/-! ### Commands -/

/-- T-F3: DIN = 00 01 .. 13, FOLD sha1. -/
theorem test_fold_sha1 :
    look (exec (.fold .sha1) (withDin ((List.range 20).map (BitVec.ofNat 8)))) (fun t => (t.v, t.status.word)) =
      some (0x18191A1B08080808, 0x0000000A) := by decide

/-- T-F15: a failed FOLD keeps V and VVALID. -/
theorem test_fold_sha256 :
    look (exec (.fold .sha256) (withValue 0x0808080808080808)) (fun t => (t.v, t.status.word)) =
      some (0x0808080808080808, 0x0000007E) := by decide

/-- T-W4. -/
theorem test_wordEnc :
    look (exec .wordEnc (withValue 0x85C43EE03857765B)) (fun t => (t.parity, t.widx)) =
      some (2, #v[1070, 271, 1472, 901, 955, 366]) := by rfl

/-- T-W15. -/
theorem test_wordEnc_after_reset : statusAfter (exec .wordEnc State.reset) = some 0x00000096 := by decide

/-- T-X4, its first two words. -/
theorem test_hexEnc :
    outputAfter (exec .hexEnc (withValue 0x85C43EE03857765B)) = some (0x38356334, 0x33656530, 16, 0x0000000A) := by
  decide

/-- T-X8. -/
theorem test_hexEnc_after_reset : outputAfter (exec .hexEnc State.reset) = some (0, 0, 0, 0x00000096) := by decide

/-- T-C4. -/
theorem test_ctrMsg :
    outputAfter (exec .ctrMsg { State.reset with counter := 0x0123456789ABCDEF }) =
      some (0x01234567, 0x89ABCDEF, 8, 0x00000002) := by decide

/-- T-H2: "7552243", SNUM = 1284755224. -/
theorem test_hotpTrunc_checksum :
    look (exec (.hotpTrunc .sha1) (withCfg 0x0000FF16)) (fun t =>
        (t.dout.word 0, t.dout.word 1, t.doutLen.toNat, t.status.word, t.snum.toNat)) =
      some (0x37353532, 0x32343300, 7, 0x00000002, 1284755224) := by decide

/-- T-H19: InvalidParameter is reported before InvalidOffset. -/
theorem test_hotpTrunc_priority :
    statusAfter (exec (.hotpTrunc .sha1) (withCfg 0x0000100F)) = some 0x000000A6 := by decide

/-- 44_totp.md R170: TIME = 2^63-1, h = -128, STEP = 1. -/
theorem test_totpCtr_extreme :
    look (exec .totpCtr { State.reset with totpTime := 0x7FFFFFFFFFFFFFFF, totpUtcoff := 0x80, totpStep := 1 })
      (fun t => (t.counter, t.dout.word 1)) = some (0x80000000000707FF, 0x000707FF) := by decide

/-- 44_totp.md R173: a negative effective time. -/
theorem test_totpCtr_negative :
    look (exec .totpCtr { State.reset with totpUtcoff := 1, counter := 5 }) (fun t => (t.counter, t.status.word)) =
      some (5, 0x00000066) := by decide

/-! ### Steps -/

/-- T-E7: the placed word runs as the first command after reset. -/
theorem test_step_placed_word : statusAfter (step (State.reset.withFetchWord 32 0x71)) = some 0x00000046 := by decide

/-- T-E6. -/
theorem test_step_illegal_word :
    statusAfter (step (State.reset.withFetchWord 32 0xFFFFFFFF)) = some 0x00000086 := by decide

/-- 70_reset_and_hazards.md R202: a reset while HEX_ENC is in flight. -/
theorem test_step_reset :
    statusAfter (step { inFlight 3 (withValue 1) with agenda := [.reset] }) = some 0x00000000 := by decide

/-! ### Host accesses -/

/-- T-A1. -/
theorem test_read_reset_values :
    [Reg.status, .hotpCfg, .totpStep, .totpUtcoff, .counterLo, .snum, .doutLen, .din 0, .dout 0].map
        (fun r => readReg r State.reset) = [0, 0x0000FF06, 0x0000001E, 0, 0, 0, 0, 0, 0] := by decide

/-- T-A2, T-A3. -/
theorem test_write_reserved_bits :
    readReg .hotpCfg (writeReg .hotpCfg 0xFFFFFF18 State.reset) = 0x0000FF18 ∧
      readReg .totpUtcoff (writeReg .totpUtcoff 0x12345680 State.reset) = 0x00000080 := by decide

/-- T-A4. -/
theorem test_write_din :
    (writeReg (.din 0) 0xDEADBEEF State.reset).din = [(0, 0xDE), (1, 0xAD), (2, 0xBE), (3, 0xEF)] ∧
      readReg (.din 0) (writeReg (.din 0) 0xDEADBEEF State.reset) = 0xDEADBEEF := by decide

/-- A word written to DIN keeps the canonical form: its zero bytes are not listed (log 11). -/
theorem test_write_din_zero_bytes :
    (writeReg (.din 15) 0x00AA0000 (writeReg (.din 15) 0xDEADBEEF State.reset)).din = [(61, 0xAA)] := by decide

/-- T-A7, T-A8: OVR is set and nothing else changes. -/
theorem test_write_while_busy :
    writeReg .hotpCfg 0x0000FF08 (inFlight 3 State.reset) = dropWrite (inFlight 3 State.reset) ∧
      writeReg .cmd 3 (inFlight 4 State.reset) = dropWrite (inFlight 4 State.reset) ∧
      readReg .status (dropWrite (inFlight 4 State.reset)) = 0x00000101 := by decide

/-- T-A9, T-A10. -/
theorem test_write_status :
    readReg .status (writeReg .status 0x00000100 (dropWrite (inFlight 3 State.reset))) = 0x00000001 ∧
      readReg .status (writeReg .status 0xFFFFFEFF (dropWrite (inFlight 3 State.reset))) = 0x00000101 := by decide

/-- T-A15. -/
theorem test_issue_status :
    readReg .status (writeReg .cmd 4 (errorComplete .noValue State.reset)) = 0x00000001 := by decide

/-- T-A13: a misaligned address, and the unmapped offsets 0x01C, 0x034, 0x140 and 0xFFC. -/
theorem test_unmapped_offsets :
    regAtOffset 0x002 = none ∧ regAtOffset 0x01C = none ∧ regAtOffset 0x034 = none ∧ regAtOffset 0x140 = none ∧
      regAtOffset 0xFFC = none := by decide

/-- T-A13: an 8-bit and a 16-bit access. -/
theorem test_narrow_access (a : Nat) : accessReg a 8 = none ∧ accessReg a 16 = none := by
  constructor <;> exact if_neg (by simp)

/-- A read on the bus: `RD CMD` answers 0 (T-A5). -/
theorem test_bus_read_cmd :
    look (step { State.reset with agenda := [rd .cmd] }) (fun t => t.bus) = some (.data 0) := by
  have h : step { State.reset with agenda := [rd .cmd] } = hostTurn (.read Reg.cmd.addr 32) State.reset := rfl
  rw [h, hostTurn_read]
  rfl

/-! ### Witnesses: concrete states and operands that meet a statement's hypotheses -/

/-- FOLD sha1 in flight, the Block to move. -/
def foldNext : State := { inFlight 0x21 State.reset with agenda := [.block] }

theorem witness_ResetFromAnyState :
    ∃ (s : State) (rest : List Turn), s.agenda = .reset :: rest ∧ s.status.busy = true :=
  ⟨{ inFlight 3 State.reset with agenda := [.reset, .block] }, [.block], rfl, rfl⟩

theorem foldNext_inv : foldNext.Inv where
  status_legal := ⟨by decide, by decide, by decide, .inl (by decide)⟩
  cfg_reserved := by decide
  din_buffer := ⟨by decide, by decide⟩
  dout_buffer := ⟨by decide, by decide⟩
  len_le := by decide
  dout_tail := fun _ _ => rfl
  error_no_output := by decide

theorem witness_StepKeepsInvariant : ∃ s t : State, s.Inv ∧ step s = .next t := ⟨foldNext, _, foldNext_inv, rfl⟩

theorem witness_DecodeOfEncode :
    (Instr.fold (.reserved 5)).WellFormed ∧ (Instr.hotpTrunc (.reserved 7)).WellFormed ∧ Instr.totpCtr.WellFormed := by
  decide

theorem witness_DecodedWordIsEncoding : ∃ (w : Word) (i : Instr), decode w = .ok i := ⟨0x71, _, rfl⟩

/-- Every line of R86, at the ends of its range. -/
theorem witness_IllegalWordsCompleteWithError :
    (∀ w ∈ [0x00000080, 0x80000025, 0x00000000, 0x00000007, 0x0000000F, 0x00000012, 0x00000076],
      IllegalBits (BitVec.ofNat 32 w)) ∧
    State.reset.status.busy = false ∧
    (IllegalBits (inFlight 7 State.reset).cur ∧ (inFlight 7 State.reset).status.busy = true) := by
  refine ⟨?_, rfl, ?_, rfl⟩
  · simp [IllegalBits]
  · simp [IllegalBits, inFlight]

theorem witness_StepRunsDecodedCommand :
    ∃ (s : State) (i : Instr), s.status.busy = true ∧ decode s.cur = .ok i ∧ s.agenda = [.block] ∧
      (inFlight 0x21 State.reset).agenda = [] :=
  ⟨foldNext, .fold .sha1, rfl, rfl, rfl, rfl⟩

theorem witness_PlacedWordRunsNext : ∃ i : Instr, i.WellFormed := ⟨.fold (.reserved 7), by decide⟩

theorem witness_IdleBlockTurnChangesNothing :
    ∃ s : State, s.status.busy = false ∧ s.agenda = [.block] ∧ State.reset.agenda = [] :=
  ⟨{ State.reset with agenda := [.block] }, rfl, rfl, rfl⟩

/-- Each error of the table; an illegal word, and HEX_ENC without a value, in flight. -/
theorem witness_ErrorDiscardsEveryWrite :
    (∀ k : ErrorKind, (k, k.code.toNat) ∈ errorTable) ∧ completionCode (inFlight 7 State.reset) = 8 ∧
      completionCode (inFlight 3 State.reset) = 9 :=
  ⟨fun k => by cases k <;> decide, rfl, rfl⟩

theorem witness_SuccessFillsOutput :
    ∃ s t : State, completeCurrent s = .next t ∧ t.status.err = false := ⟨inFlight 4 State.reset, _, rfl, rfl⟩

theorem witness_ErrorPriority : ∃ s t : State, completeCurrent s = .next t ∧ t.status.ecode = 10 :=
  ⟨inFlight 0x25 { State.reset with hotpCfg := 0x0000100F }, _, rfl, rfl⟩

theorem witness_CommandFrame : ∃ (i : Instr) (s t : State), exec i s = .next t ∧ t.snum ≠ s.snum :=
  ⟨.hotpTrunc .sha1, withDin macZero, _, rfl, by decide⟩

theorem witness_CommandsAreRepeatable : ∃ (i : Instr) (s t : State), exec i s = .next t ∧ t ≠ s :=
  ⟨.ctrMsg, State.reset, _, rfl, by decide⟩

theorem witness_FoldCompletes : ∃ alg : Alg, alg = .md4 ∨ alg = .md5 ∨ alg = .sha1 := ⟨.sha1, by decide⟩

theorem witness_FoldRejectsAlgorithms : 5 ≤ (5 : BitVec 3).toNat ∧ 5 ≤ (7 : BitVec 3).toNat := by decide

/-- T-F9. -/
theorem witness_FoldLoadsChosenValue :
    let s := withDin [0x01, 0x23, 0x45, 0x67, 0x89, 0xAB, 0xCD, 0xEF]
    (∀ j, j < 8 → s.din.read j = bigEndianByte 0x0123456789ABCDEF j) ∧
      ∀ j, 8 ≤ j → j < 16 → s.din.read j = 0 := by
  refine ⟨?_, ?_⟩
  · decide
  · intro j h1 h2
    have : ∀ j, j < 16 → 8 ≤ j →
        Memory.read (withDin [0x01, 0x23, 0x45, 0x67, 0x89, 0xAB, 0xCD, 0xEF]).din j = 0 := by decide
    exact this j h2 h1

/-- T-F8: two states that differ in DIN[16], which MD4 does not read, and in V. -/
theorem witness_FoldReadsOnlyDigest :
    ∃ s s' t t' : State, (∀ a, a < (if Alg.md4 = .sha1 then 20 else 16) → s.din.read a = s'.din.read a) ∧
      exec (.fold .md4) s = .next t ∧ exec (.fold .md4) s' = .next t' ∧ s.din.read 16 ≠ s'.din.read 16 ∧ s.v ≠ s'.v :=
  ⟨State.reset, { withValue 7 with din := [(16, 0xDE)] }, _, _, by decide, rfl, rfl, by decide, by decide⟩

theorem witness_WordEncCompletes : ∃ s : State, s.status.vvalid = true := ⟨withValue 0x85C43EE03857765B, rfl⟩

theorem witness_HexEncCompletes :
    (∃ s : State, s.status.vvalid = true) ∧ ∃ s : State, s.status.vvalid = false :=
  ⟨⟨withValue 0, rfl⟩, State.reset, rfl⟩

theorem witness_WordEncWithoutValue : ∃ s : State, s.status.vvalid = false := ⟨State.reset, rfl⟩

theorem witness_EncodersCanBeDecoded : ∃ s : State, s.status.vvalid = true ∧ s.v = 0xFFFFFFFFFFFFFFFF :=
  ⟨withValue 0xFFFFFFFFFFFFFFFF, rfl, rfl⟩

theorem witness_WordTextDeterminesValue :
    ∃ s s' t t' : State, s.status.vvalid = true ∧ s'.status.vvalid = true ∧ exec .wordEnc s = .next t ∧
      exec .wordEnc s' = .next t' ∧ (∀ a, a < 32 → t.dout.read a = t'.dout.read a) ∧ s ≠ s' :=
  ⟨withValue 1, { withValue 1 with snum := 1 }, _, _, rfl, rfl, rfl, rfl, fun _ _ => rfl, by decide⟩

/-- The ends of the ranges: six digits with the dynamic offset and SHA-1; ten digits, check digit, fixed offset 15 and
SHA-512. -/
theorem witness_HotpTruncCompletes :
    ((Alg.sha1, 20) ∈ [(Alg.sha1, 20), (Alg.sha256, 32), (Alg.sha512, 64)] ∧ digitsField (withCfg 0x0000FF06) = 6 ∧
      toffField (withCfg 0x0000FF06) = 255 ∧ ((withCfg 0x0000FF06).din.read 19).toNat % 16 = 0) ∧
    ((Alg.sha512, 64) ∈ [(Alg.sha1, 20), (Alg.sha256, 32), (Alg.sha512, 64)] ∧
      digitsField (withCfg 0x00000F1A) = 10 ∧ toffField (withCfg 0x00000F1A) = 15 ∧
      (withCfg 0x00000F1A).hotpCfg.getLsbD 4 = true) := by decide

theorem witness_HotpCodeDenotesValue :
    ∃ (alg : Alg) (s t : State), exec (.hotpTrunc alg) s = .next t ∧ t.status.err = false :=
  ⟨.sha1, withDin macZero, _, rfl, rfl⟩

theorem witness_HotpCodePassesLuhn :
    ∃ (alg : Alg) (s t : State), exec (.hotpTrunc alg) s = .next t ∧ t.status.err = false ∧
      s.hotpCfg.getLsbD 4 = true :=
  ⟨.sha1, withCfg 0x0000FF1A, _, rfl, rfl, rfl⟩

theorem witness_CheckDigitIgnoresLeadingZeros : 755224 < 10 ^ 6 ∧ 6 ≤ 10 := by decide

theorem witness_HotpTruncRejects :
    (Alg.md5 ≠ .sha1 ∧ Alg.md5 ≠ .sha256 ∧ Alg.md5 ≠ .sha512) ∧ digitsField (withCfg 0x0000FF05) < 6 ∧
    10 < digitsField (withCfg 0x0000FF0B) ∧
    (digitsField (withCfg 0x00001006) = 6 ∧ 15 < toffField (withCfg 0x00001006) ∧
      toffField (withCfg 0x00001006) ≠ 255) ∧
    (digitsField (withCfg 0x0000FE0A) = 10 ∧ 15 < toffField (withCfg 0x0000FE0A) ∧
      toffField (withCfg 0x0000FE0A) ≠ 255) := by decide

/-- Two states that agree only on the last byte and on the window at fixed offset 15, and differ at both its ends. -/
theorem witness_HotpReadsOnlyItsWindow :
    ∃ s s' t t' : State, s.hotpCfg = s'.hotpCfg ∧ s.din.read 63 = s'.din.read 63 ∧ toffField s = 15 ∧
      (∀ j, j < 4 → s.din.read (15 + j) = s'.din.read (15 + j)) ∧ exec (.hotpTrunc .sha512) s = .next t ∧
      exec (.hotpTrunc .sha512) s' = .next t' ∧ s.din.read 14 ≠ s'.din.read 14 ∧ s.din.read 19 ≠ s'.din.read 19 :=
  ⟨{ State.reset with hotpCfg := 0x0F06 }, { State.reset with hotpCfg := 0x0F06, din := [(14, 1), (19, 1)] }, _, _, rfl,
    by decide, by decide, by decide, rfl, rfl, by decide, by decide⟩

/-- 44_totp.md R170: TIME = -3600 with h = -1 gives e = 0. -/
theorem witness_TotpCtrCompletes :
    let s := { State.reset with totpTime := BitVec.ofInt 64 (-3600), totpUtcoff := 0xFF }
    (0 : Int) = s.totpTime.toInt - 3600 * s.totpUtcoff.toInt ∧ s.totpStep ≠ 0 ∧ (0 : Int) ≤ 0 := by decide

/-- One second short of the hour. -/
theorem witness_TotpCtrRejects :
    (∃ s : State, s.totpStep = 0) ∧
    ∃ s : State, s.totpStep ≠ 0 ∧ s.totpTime.toInt < 3600 * s.totpUtcoff.toInt :=
  ⟨⟨{ State.reset with totpStep := 0 }, rfl⟩, { State.reset with totpTime := 3599, totpUtcoff := 1 }, by decide⟩

theorem witness_TotpMessageIsCtrMsg : ∃ s t : State, exec .totpCtr s = .next t ∧ t.status.err = false :=
  ⟨{ State.reset with totpTime := 59 }, _, rfl, rfl⟩

theorem witness_UnfoldedValueIsUnobservable :
    (∃ s : State, s.status.vvalid = false ∧ s.status.busy = true) ∧
    ∃ (s : State) (acc : Access) (rest : List Turn), s.status.vvalid = true ∧ s.agenda = .host acc :: rest :=
  ⟨⟨foldNext, rfl, rfl⟩, { withValue 7 with agenda := [rd (.dout 0)] }, _, [], rfl, rfl⟩

theorem witness_IdleCommandWordIsUnobservable :
    (∃ s : State, s.status.busy = false) ∧
    ∃ (s : State) (acc : Access) (rest : List Turn), s.status.busy = true ∧ s.agenda = .host acc :: rest :=
  ⟨⟨State.reset, rfl⟩, { foldNext with agenda := [rd .cmd] }, _, [], rfl, rfl⟩

/-- A state that is idle: the hypothesis of WriteStoresWritableBits, IssueLatchesCommand,
ResultRegistersReadTrueValues, BufferWordsArePacked and PairWritesStoreBothHalves. -/
theorem witness_Idle : ∃ s : State, s.status.busy = false := ⟨State.reset, rfl⟩

theorem witness_WriteWhileBusyIsDropped :
    ∃ (s : State) (r : Reg), s.status.busy = true ∧
      (r ∈ [Reg.cmd, .hotpCfg, .totpStep, .totpTimeLo, .totpTimeHi, .totpUtcoff, .counterLo, .counterHi] ∨
        ∃ k, r = .din k) :=
  ⟨foldNext, .din 15, rfl, .inr ⟨15, rfl⟩⟩

/-- A narrow access, and one below the window's first mapped gap. -/
theorem witness_RefusedAccessIsBusError :
    ¬ (Access.read (Config.base + 0x004) 16).accepted ∧ ¬ (Access.write (Config.base + 0x01C) 32 0).accepted := by
  constructor
  · simp [Access.accepted, accessReg]
  · have h : regAtOffset 0x01C = none := by decide
    simp [Access.accepted, accessReg, h]

theorem witness_BusyResultReadIsFree :
    ∃ (s : State) (r : Reg), s.status.busy = true ∧
      (r ∈ [Reg.counterLo, .counterHi, .snum, .doutLen, .parity] ∨ (∃ k, r = .widx k) ∨ ∃ k, r = .dout k) :=
  ⟨foldNext, .dout 7, rfl, .inr (.inr ⟨7, rfl⟩)⟩

theorem witness_LoadInFillsDin :
    ∃ (s : State) (bs : List Byte) (rest : List Turn), s.status.busy = false ∧ bs.length ≤ 64 ∧
      s.agenda = loadIn bs ++ rest :=
  ⟨{ State.reset with agenda := loadIn macZero ++ [.block] }, macZero, [.block], rfl, by decide, rfl⟩

theorem witness_FlagsChangeOnlyAsSaid :
    ∃ s t : State, step s = .next t ∧ s.status.busy = true ∧ t.status.busy = false ∧ s.status.vvalid = false ∧
      t.status.vvalid = true := ⟨foldNext, _, rfl, rfl, rfl, rfl, rfl⟩

/-- The flags' other moves: issue, a dropped write, the clearing of OVR, and reset. -/
theorem witness_FlagMoves :
    (writeReg .cmd 3 State.reset).status.busy = true ∧ (dropWrite foldNext).status.ovr = true ∧
      (writeReg .status 0x100 (dropWrite foldNext)).status.ovr = false ∧
      (resetTurn (withValue 1)).status.vvalid = false := by decide

theorem witness_OperandsFrozenWhileBusy :
    ∃ (s t : State) (acc : Access) (rest : List Turn), s.status.busy = true ∧ s.agenda = .host acc :: rest ∧
      step s = .next t := by
  have h := hostTurn_write .hotpCfg 8 { foldNext with agenda := [] }
  exact ⟨{ foldNext with agenda := [wr .hotpCfg 8] }, _, .write Reg.hotpCfg.addr 32 8, [], rfl, rfl, h⟩

theorem witness_CompletionIgnoresLatency :
    ∃ (s t0 : State) (accs : List Access), s.status.busy = true ∧ (∀ a ∈ accs, a.accepted) ∧ accs.length = 1 ∧
      step { s with agenda := [.block] } = .next t0 := by
  refine ⟨foldNext, _, [.read Reg.status.addr 32], rfl, ?_, rfl, rfl⟩
  simp [Access.accepted]

theorem witness_CompletionAlwaysComes : ∃ s : State, s.status.busy = true ∧ (∀ u ∈ s.agenda, u.quiet) ∧ s.agenda ≠ [] := by
  refine ⟨{ foldNext with agenda := [rd .status] }, rfl, ?_, by simp⟩
  simp [rd, Turn.quiet, Access.accepted]

theorem witness_ExecStatementCompletes :
    ∃ (s : State) (i : Instr) (polls : Nat) (rest : List Turn), s.status.busy = false ∧ i.WellFormed ∧
      s.agenda = execTurns i polls ++ rest :=
  ⟨{ State.reset with agenda := execTurns (.fold .md5) 2 ++ [] }, .fold .md5, 2, [], rfl, by decide, rfl⟩

end Sys2Proof.Tests
end

section
/-! The invariant of the state (10_state.md R25, R32 to R34, R41; 60_exceptions.md R184, R185): each operation of the
model keeps it, so every step does. -/

namespace Sys2Proof.Machine

/-! ### The legal states of STATUS -/

theorem Status.issued_legal (st : Status) : st.issued.Legal :=
  ⟨fun _ => ⟨rfl, rfl, rfl⟩, by simp, fun _ => rfl, .inl rfl⟩

theorem Status.succeeded_legal (st : Status) : st.succeeded.Legal :=
  ⟨by simp, by simp, fun _ => rfl, .inl rfl⟩

theorem Status.failed_legal (st : Status) {k : ErrorKind} (hk : k.raised) : (st.failed k).Legal := by
  obtain ⟨hproduced, hne⟩ := k.code_produced hk
  exact ⟨by simp, by simpa using hne, by simp, hproduced⟩

/-- Legality speaks of BUSY, DONE, ERR and ECODE alone: VVALID and OVR may change freely. -/
theorem Status.Legal.withFlags {st : Status} (h : st.Legal) (vvalid ovr : Bool) :
    { st with vvalid := vvalid, ovr := ovr }.Legal :=
  ⟨h.busy_clears, h.err_iff_code, h.undone_clears, h.code_produced⟩

/-! ### Which parts of the state the invariant reads -/

/-- The invariant reads STATUS, HOTP_CFG, DIN, DOUT and DOUT_LEN, and no other field. -/
theorem State.Inv.congr {s t : State} (h : s.Inv) (hstatus : t.status = s.status := by rfl)
    (hcfg : t.hotpCfg = s.hotpCfg := by rfl) (hdin : t.din = s.din := by rfl) (hdout : t.dout = s.dout := by rfl)
    (hlen : t.doutLen = s.doutLen := by rfl) : t.Inv where
  status_legal := hstatus ▸ h.status_legal
  cfg_reserved := hcfg ▸ h.cfg_reserved
  din_buffer := hdin ▸ h.din_buffer
  dout_buffer := hdout ▸ h.dout_buffer
  len_le := hlen ▸ h.len_le
  dout_tail := by rw [hlen, hdout]; exact h.dout_tail
  error_no_output := by rw [hlen, hstatus]; exact h.error_no_output

/-- A legal STATUS that reports no new error may take the place of the old one. -/
theorem State.Inv.withStatus {s : State} (h : s.Inv) {st : Status} (hl : st.Legal)
    (herr : st.err = true → s.status.err = true) : { s with status := st }.Inv :=
  ⟨hl, h.cfg_reserved, h.din_buffer, h.dout_buffer, h.len_le, h.dout_tail, fun he => h.error_no_output (herr he)⟩

/-! ### Reset -/

theorem State.reset_inv : State.reset.Inv where
  status_legal := ⟨by decide, by decide, by decide, .inl rfl⟩
  cfg_reserved := by decide
  din_buffer := Memory.nil_buffer 64
  dout_buffer := Memory.nil_buffer 32
  len_le := by decide
  dout_tail := fun _ _ => rfl
  error_no_output := fun _ => rfl

theorem resetTurn_inv (s : State) : (resetTurn s).Inv := State.reset_inv.congr

/-! ### Host accesses -/

theorem Reg.store_inv (r : Reg) (w : Word) {s : State} (h : s.Inv) : (r.store w s).Inv := by
  cases r with
  | hotpCfg =>
    refine ⟨h.status_legal, ?_, h.din_buffer, h.dout_buffer, h.len_le, h.dout_tail, h.error_no_output⟩
    show w &&& 0x0000FF1F &&& 0x0000FF1F = w &&& 0x0000FF1F
    rw [BitVec.and_assoc, BitVec.and_self]
  | din k =>
    have hinside : 4 * k.val + (beBytes 4 w.toNat).length ≤ 64 := by rw [beBytes_length]; omega
    exact ⟨h.status_legal, h.cfg_reserved, Memory.writeBytes_buffer h.din_buffer hinside, h.dout_buffer, h.len_le,
      h.dout_tail, h.error_no_output⟩
  | totpStep | totpTimeLo | totpTimeHi | totpUtcoff | counterLo | counterHi => exact h.congr
  | cmd | status | snum | doutLen | parity | widx k | dout k => exact h

theorem issue_inv (w : Word) {s : State} (h : s.Inv) : (issue w s).Inv :=
  (h.withStatus s.status.issued_legal (by simp)).congr

theorem dropWrite_inv {s : State} (h : s.Inv) : (dropWrite s).Inv :=
  h.withStatus (h.status_legal.withFlags _ _) id

theorem writeReg_inv (r : Reg) (w : Word) {s : State} (h : s.Inv) : (writeReg r w s).Inv := by
  rcases writeReg_cases r w s with ⟨-, hw⟩ | ⟨-, hw⟩ | ⟨-, hw⟩ | ⟨-, -, hw⟩ | ⟨-, hw⟩ <;> rw [hw]
  · exact h.withStatus (h.status_legal.withFlags _ _) id
  · exact h
  · exact dropWrite_inv h
  · exact issue_inv w h
  · exact Reg.store_inv r w h

theorem afterRead_inv (r : Reg) {s : State} (h : s.Inv) : (afterRead r s).Inv := by
  unfold afterRead
  split
  · exact h.congr
  · exact h

theorem hostTurn_inv {acc : Access} {s t : State} (h : s.Inv) (ht : hostTurn acc s = .next t) : t.Inv := by
  rcases hostTurn_cases acc s with ⟨-, hf⟩ | ⟨r, w, -, hn⟩ | ⟨r, -, hn⟩
  · rw [hf] at ht; cases ht
  · rw [hn] at ht; cases ht; exact (writeReg_inv r w h).congr
  · rw [hn] at ht; cases ht; exact (afterRead_inv r h).congr

/-! ### Completions -/

/-- A buffer of n bytes reads 0x00 from address n up. -/
theorem Memory.Buffer.read_outside {m : Memory} {n a : Nat} (h : Memory.Buffer m n) (ha : n ≤ a) : m.read a = 0 :=
  Memory.read_unlisted fun c hc => by have := h.inside c hc; omega

/-- Past the output a completed DOUT reads 0x00 (60_exceptions.md R184). -/
theorem Memory.read_withOutput_tail {m : Memory} {out : List Byte} {a : Nat} (hm : Memory.Buffer m 32)
    (hout : out.length ≤ 32) (ha : out.length ≤ a) : (m.withOutput out).read a = 0 := by
  rw [Memory.read_withOutput hout]
  split
  · exact List.getD_eq_default _ _ ha
  · exact hm.read_outside (by omega)

/-- DOUT_LEN holds the length of every output that fits in DOUT. -/
theorem toNat_doutLen_ofNat {n : Nat} (h : n ≤ 32) : (BitVec.ofNat 6 n).toNat = n := by
  rw [BitVec.toNat_ofNat]; omega

theorem complete_inv {out : List Byte} {s : State} (h : s.Inv) (hout : out.length ≤ 32) : (complete out s).Inv where
  status_legal := s.status.succeeded_legal
  cfg_reserved := h.cfg_reserved
  din_buffer := h.din_buffer
  dout_buffer := Memory.withOutput_buffer h.dout_buffer hout
  len_le := by rw [complete_doutLen, toNat_doutLen_ofNat hout]; exact hout
  dout_tail a ha := by
    rw [complete_doutLen, toNat_doutLen_ofNat hout] at ha
    exact Memory.read_withOutput_tail h.dout_buffer hout ha
  error_no_output := by simp

theorem errorComplete_inv {k : ErrorKind} (hk : k.raised) {s : State} (h : s.Inv) : (errorComplete k s).Inv where
  status_legal := s.status.failed_legal hk
  cfg_reserved := h.cfg_reserved
  din_buffer := h.din_buffer
  dout_buffer := Memory.withOutput_buffer h.dout_buffer (Nat.zero_le 32)
  len_le := Nat.zero_le 32
  dout_tail a _ := Memory.read_withOutput_tail h.dout_buffer (Nat.zero_le 32) (Nat.zero_le a)
  error_no_output := fun _ => rfl

theorem OwnWrites.inv {i : Instr} {s u : State} (hu : OwnWrites i s u) (h : s.Inv) : u.Inv := by
  cases i with
  | fold alg =>
    obtain ⟨x, rfl⟩ := hu
    exact (h.withStatus (st := s.status.withValue) (h.status_legal.withFlags _ _) id).congr
  | wordEnc => obtain ⟨p, idx, rfl⟩ := hu; exact h.congr
  | hotpTrunc alg => obtain ⟨n, rfl⟩ := hu; exact h.congr
  | totpCtr => obtain ⟨c, rfl⟩ := hu; exact h.congr
  | hexEnc | ctrMsg => exact hu ▸ h

theorem completeCurrent_inv {s t : State} (h : s.Inv) (ht : completeCurrent s = .next t) : t.Inv := by
  rcases completeCurrent_cases s with ⟨k, hk, hn⟩ | ⟨i, out, u, -, hout, hu, hn⟩
  · rw [hn] at ht; cases ht; exact errorComplete_inv hk h
  · rw [hn] at ht; cases ht; exact complete_inv (hu.inv h) hout

theorem step_inv {s t : State} (h : s.Inv) (ht : step s = .next t) : t.Inv := by
  obtain ⟨s0, ⟨rest, rfl⟩, ⟨acc, hs⟩ | ⟨-, hs⟩ | ⟨-, hs⟩ | hs⟩ := step_cases s
  · exact hostTurn_inv h.congr (hs ▸ ht)
  · exact completeCurrent_inv h.congr (hs ▸ ht)
  · rw [hs] at ht; cases ht; exact h.congr
  · rw [hs] at ht; cases ht; exact resetTurn_inv _

/-- Settles O3: both buffers are empty after reset, and the rest of the invariant is about fixed values. -/
theorem resetMeetsInvariant : Obligations.ResetMeetsInvariant := State.reset_inv

/-- Settles O4: each turn keeps the invariant, and a step is one turn. -/
theorem stepKeepsInvariant : Obligations.StepKeepsInvariant := fun _ _ => step_inv

end Sys2Proof.Machine
end

section
/-! What one turn does to STATUS (10_state.md R44), and that STATUS reads as its fields (R25). -/

namespace Sys2Proof.Machine

open Sys2Proof.Claims

/-! ### Which turn a step takes -/

/-- A step takes the turn at the head of the agenda, and past its end the Block's: what it can do, with the turn that
does it. -/
theorem step_turns (s : State) : ∃ s0 : State, (∃ rest, s0 = { s with agenda := rest }) ∧
    ((∃ acc, s.agenda.head? = some (.host acc) ∧ step s = hostTurn acc s0) ∨
      (BlockMoves s ∧ step s = completeCurrent s0) ∨
      (s.status.busy = false ∧ step s = .next s0) ∨
      (Resets s ∧ step s = .next (resetTurn s0))) := by
  have block : ∀ s0 : State, s0.status = s.status → s.agenda = [] ∨ s.agenda.head? = some .block →
      step s = blockTurn s0 →
      (BlockMoves s ∧ step s = completeCurrent s0) ∨ (s.status.busy = false ∧ step s = .next s0) := by
    intro s0 h0 hturn h
    rw [h, blockTurn, h0, BlockMoves]
    cases s.status.busy <;> simp [hturn]
  cases h : s.agenda with
  | nil =>
    refine ⟨s, ⟨[], by rw [← h]⟩, ?_⟩
    exact .inr ((block s rfl (.inl h) (step_nil h)).imp_right .inl)
  | cons u rest =>
    refine ⟨{ s with agenda := rest }, ⟨rest, rfl⟩, ?_⟩
    cases u with
    | host acc => exact .inl ⟨acc, rfl, step_cons h⟩
    | block => exact .inr ((block { s with agenda := rest } rfl (.inr (by rw [h]; rfl)) (step_cons h)).imp_right .inl)
    | reset => exact .inr (.inr (.inr ⟨by rw [Resets, h]; rfl, step_cons h⟩))

/-! ### What a turn does to STATUS -/

/-- The moves of STATUS in one step from s, one for each of the spec's ways to write it (10_state.md R44). -/
inductive StatusMove (s : State) : Status → Prop
  /-- No rule writes STATUS. -/
  | kept : StatusMove s s.status
  /-- 40_host_access.md R104. -/
  | issued (w : Word) (h : Issues s w) : StatusMove s s.status.issued
  /-- 40_host_access.md R103. -/
  | dropped (r : Reg) (w : Word) (hbusy : s.status.busy = true) (h : s.agenda.head? = some (wr r w)) :
    StatusMove s s.status.overrun
  /-- 40_host_access.md R105. -/
  | cleared (w : Word) (h : s.agenda.head? = some (wr .status w)) : StatusMove s (s.status.written w)
  /-- 60_exceptions.md R185. -/
  | failed (k : ErrorKind) (h : BlockMoves s) : StatusMove s (s.status.failed k)
  /-- 60_exceptions.md R184. -/
  | succeeded (h : BlockMoves s) : StatusMove s s.status.succeeded
  /-- 41_fold.md R120: a successful FOLD makes V valid. -/
  | folded (alg : Alg) (h : BlockMoves s) (hcur : decode s.cur = .ok (.fold alg)) :
    StatusMove s s.status.withValue.succeeded
  /-- 70_reset_and_hazards.md R201. -/
  | reset (h : Resets s) : StatusMove s State.reset.status

@[simp] theorem Reg.store_status (r : Reg) (w : Word) (s : State) : (r.store w s).status = s.status := by
  cases r <;> rfl

@[simp] theorem afterRead_status (r : Reg) (s : State) : (afterRead r s).status = s.status := by
  unfold afterRead; split <;> rfl

/-- Only a FOLD writes a flag of its own, VVALID, before it completes (30_encoding.md R84). -/
theorem OwnWrites.status {i : Instr} {s u : State} (h : OwnWrites i s u) :
    u.status = s.status ∨ (∃ alg, i = .fold alg) ∧ u.status = s.status.withValue := by
  cases i with
  | fold alg => obtain ⟨x, rfl⟩ := h; exact .inr ⟨⟨alg, rfl⟩, rfl⟩
  | wordEnc => obtain ⟨p, idx, rfl⟩ := h; exact .inl rfl
  | hotpTrunc alg => obtain ⟨n, rfl⟩ := h; exact .inl rfl
  | totpCtr => obtain ⟨c, rfl⟩ := h; exact .inl rfl
  | hexEnc | ctrMsg => exact .inl (congrArg _ h)

section
variable {s t : State} {rest : List Turn}

theorem writeReg_statusMove {r : Reg} {w : Word} (hturn : s.agenda.head? = some (wr r w)) :
    StatusMove s (writeReg r w { s with agenda := rest }).status := by
  rcases writeReg_cases r w { s with agenda := rest } with
    ⟨rfl, hw⟩ | ⟨-, hw⟩ | ⟨hbusy, hw⟩ | ⟨hidle, rfl, hw⟩ | ⟨-, hw⟩ <;> rw [hw]
  · exact .cleared w hturn
  · exact .kept
  · exact .dropped r w hbusy hturn
  · exact .issued w ⟨hidle, hturn⟩
  · rw [Reg.store_status]; exact .kept

theorem hostTurn_statusMove {acc : Access} (hturn : s.agenda.head? = some (.host acc))
    (ht : hostTurn acc { s with agenda := rest } = .next t) : StatusMove s t.status := by
  rcases hostTurn_cases acc { s with agenda := rest } with ⟨-, hf⟩ | ⟨r, w, rfl, hn⟩ | ⟨r, -, hn⟩
  · rw [hf] at ht; cases ht
  · rw [hn] at ht; cases ht; exact writeReg_statusMove hturn
  · rw [hn] at ht; cases ht
    show StatusMove s (afterRead r { s with agenda := rest }).status
    rw [afterRead_status]; exact .kept

theorem completeCurrent_statusMove (hturn : BlockMoves s)
    (ht : completeCurrent { s with agenda := rest } = .next t) : StatusMove s t.status := by
  rcases completeCurrent_cases { s with agenda := rest } with ⟨k, -, hn⟩ | ⟨i, out, u, hcur, -, hu, hn⟩
  · rw [hn] at ht; cases ht; exact .failed k hturn
  · rw [hn] at ht; cases ht
    rcases hu.status with hkept | ⟨⟨alg, rfl⟩, hset⟩
    · rw [complete_status, hkept]; exact .succeeded hturn
    · rw [complete_status, hset]; exact .folded alg hturn hcur

/-- Every step moves STATUS in one of the spec's ways. -/
theorem step_statusMove (ht : step s = .next t) : StatusMove s t.status := by
  obtain ⟨s0, ⟨rest, rfl⟩, ⟨acc, hturn, hs⟩ | ⟨hturn, hs⟩ | ⟨-, hs⟩ | ⟨hturn, hs⟩⟩ := step_turns s
  · exact hostTurn_statusMove hturn (hs ▸ ht)
  · exact completeCurrent_statusMove hturn (hs ▸ ht)
  · rw [hs] at ht; cases ht; exact .kept
  · rw [hs] at ht; cases ht; exact .reset hturn

end

/-! ### Which moves change each flag -/

namespace StatusMove

variable {s : State} {st : Status}

theorem busy_rises (h : StatusMove s st) (h0 : s.status.busy = false) (h1 : st.busy = true) : ∃ w, Issues s w := by
  cases h with
  | issued w hissue => exact ⟨w, hissue⟩
  | kept | dropped | cleared => simp [h0] at h1
  | failed | succeeded | folded | reset => cases h1

theorem busy_falls (h : StatusMove s st) (h0 : s.status.busy = true) (h1 : st.busy = false) :
    BlockMoves s ∨ Resets s := by
  cases h with
  | failed _ hblock | succeeded hblock | folded _ hblock => exact .inl hblock
  | reset hreset => exact .inr hreset
  | kept | dropped | cleared => simp [h0] at h1
  | issued => cases h1

theorem done_rises (h : StatusMove s st) (h0 : s.status.done = false) (h1 : st.done = true) : BlockMoves s := by
  cases h with
  | failed _ hblock | succeeded hblock | folded _ hblock => exact hblock
  | kept | dropped | cleared => simp [h0] at h1
  | issued | reset => cases h1

theorem done_falls (h : StatusMove s st) (h0 : s.status.done = true) (h1 : st.done = false) :
    Resets s ∨ ∃ w, Issues s w := by
  cases h with
  | reset hreset => exact .inl hreset
  | issued w hissue => exact .inr ⟨w, hissue⟩
  | kept | dropped | cleared => simp [h0] at h1
  | failed | succeeded | folded => cases h1

theorem error_changes (h : StatusMove s st) (h1 : st.err ≠ s.status.err ∨ st.ecode ≠ s.status.ecode) :
    BlockMoves s ∨ Resets s ∨ ∃ w, Issues s w := by
  cases h with
  | failed _ hblock | succeeded hblock | folded _ hblock => exact .inl hblock
  | reset hreset => exact .inr (.inl hreset)
  | issued w hissue => exact .inr (.inr ⟨w, hissue⟩)
  | kept | dropped | cleared => simp at h1

theorem vvalid_rises (h : StatusMove s st) (h0 : s.status.vvalid = false) (h1 : st.vvalid = true) :
    BlockMoves s ∧ ∃ alg, decode s.cur = .ok (.fold alg) := by
  cases h with
  | folded alg hblock hcur => exact ⟨hblock, alg, hcur⟩
  | kept | issued | dropped | cleared | failed | succeeded => simp [h0] at h1
  | reset => cases h1

theorem vvalid_falls (h : StatusMove s st) (h0 : s.status.vvalid = true) (h1 : st.vvalid = false) : Resets s := by
  cases h with
  | reset hreset => exact hreset
  | kept | issued | dropped | cleared | failed | succeeded => simp [h0] at h1
  | folded => cases h1

theorem ovr_rises (h : StatusMove s st) (h0 : s.status.ovr = false) (h1 : st.ovr = true) :
    s.status.busy = true ∧ ∃ r w, s.agenda.head? = some (wr r w) := by
  cases h with
  | dropped r w hbusy hturn => exact ⟨hbusy, r, w, hturn⟩
  | kept | issued | cleared | failed | succeeded | folded => simp [h0] at h1
  | reset => cases h1

theorem ovr_falls (h : StatusMove s st) (h0 : s.status.ovr = true) (h1 : st.ovr = false) :
    Resets s ∨ ∃ w : Word, w.getLsbD 8 = true ∧ s.agenda.head? = some (wr .status w) := by
  cases h with
  | reset hreset => exact .inl hreset
  | cleared w hturn => exact .inr ⟨w, by simpa [h0] using h1, hturn⟩
  | kept | issued | failed | succeeded | folded => simp [h0] at h1
  | dropped => cases h1

end StatusMove

/-- Settles O53: a step is one `StatusMove`, and each flag changes in the moves named. -/
theorem flagsChangeOnlyAsSaid : Obligations.FlagsChangeOnlyAsSaid := by
  intro s t ht
  have h := step_statusMove ht
  exact ⟨h.busy_rises, h.busy_falls, h.done_rises, h.done_falls, h.error_changes, h.vvalid_rises, h.vvalid_falls,
    h.ovr_rises, h.ovr_falls⟩

/-! ### Reading STATUS -/

theorem readReg_of_not_result {r : Reg} (h : r.isResult = false) (s : State) : readReg r s = r.value s := by
  simp [readReg, h]

theorem afterRead_of_not_result {r : Reg} (h : r.isResult = false) (s : State) : afterRead r s = s := by
  simp [afterRead, h]

/-- The agenda is the model's own: no register shows it. -/
theorem Reg.value_withAgenda (r : Reg) (s : State) (agenda : List Turn) :
    r.value { s with agenda := agenda } = r.value s := by
  cases r <;> rfl

/-- A read of a register that is no result register returns its value and changes nothing, busy or not
(40_host_access.md R101). -/
theorem step_rd_of_not_result (s : State) {r : Reg} (h : r.isResult = false) : AfterRead s r (r.value s) := by
  intro rest
  have hstep : step { s with agenda := rd r :: rest } = hostTurn (.read r.addr 32) { s with agenda := rest } :=
    step_cons (s := { s with agenda := rd r :: rest }) rfl
  rw [hstep, hostTurn_read, readReg_of_not_result h, afterRead_of_not_result h, Reg.value_withAgenda]

/-- The word of STATUS as a number: each field times the weight of its lowest bit (10_state.md R25). -/
theorem Status.word_toNat (st : Status) : st.word.toNat = st.busy.toNat + 2 * st.done.toNat + 4 * st.err.toNat +
    8 * st.vvalid.toNat + 16 * st.ecode.toNat + 256 * st.ovr.toNat := by
  have hzero : (0 : BitVec 23).toNat = 0 := rfl
  simp only [Status.word, toNat_append_eq, BitVec.toNat_ofBool, hzero]
  omega

/-- Settles O46: STATUS is no result register, so its read returns its word. -/
theorem statusReadsItsFields : Obligations.StatusReadsItsFields := fun s =>
  ⟨s.status.word, step_rd_of_not_result s rfl, s.status.word_toNat⟩

end Sys2Proof.Machine
end

section
/-! Noninterference: V reaches nothing while VVALID = 0, CUR reaches nothing while BUSY = 0, and no host access shows
either (10_state.md R37 to R39). Each statement compares the step from s with the step from s with the hidden register
overwritten. -/

namespace Sys2Proof.Machine

/-! ### Overwriting V and CUR -/

/-- V overwritten. -/
def State.withV (x : DWord) (s : State) : State := { s with v := x }

/-- CUR overwritten. -/
def State.withCur (w : Word) (s : State) : State := { s with cur := w }

@[simp] theorem State.withV_status (x : DWord) (s : State) : (s.withV x).status = s.status := rfl
@[simp] theorem State.withV_din (x : DWord) (s : State) : (s.withV x).din = s.din := rfl
@[simp] theorem State.withV_digits (x : DWord) (s : State) : (s.withV x).digits = s.digits := rfl
@[simp] theorem State.withV_chk (x : DWord) (s : State) : (s.withV x).chk = s.chk := rfl
@[simp] theorem State.withV_toff (x : DWord) (s : State) : (s.withV x).toff = s.toff := rfl
@[simp] theorem State.withV_stepSeconds (x : DWord) (s : State) : (s.withV x).stepSeconds = s.stepSeconds := rfl
@[simp] theorem State.withV_effectiveTime (x : DWord) (s : State) : (s.withV x).effectiveTime = s.effectiveTime := rfl

/-! ### Outcomes of two runs side by side -/

/-- Two outcomes are alike: the same fault, or next states that R relates. -/
inductive SameOutcome (R : State → State → Prop) : Outcome → Outcome → Prop
  | fault (f : Fault) : SameOutcome R (.fault f) (.fault f)
  | next {t t' : State} (h : R t t') : SameOutcome R (.next t) (.next t')

theorem SameOutcome.cases {R : State → State → Prop} {o o' : Outcome} (h : SameOutcome R o o') :
    (∃ f, o = .fault f ∧ o' = .fault f) ∨ ∃ t t', o = .next t ∧ o' = .next t' ∧ R t t' := by
  cases h with
  | fault f => exact .inl ⟨f, rfl, rfl⟩
  | next h => exact .inr ⟨_, _, rfl, rfl, h⟩

/-- Two states with the same agenda take the same turn, so their steps are alike when that turn's outcomes are. -/
theorem step_sameOutcome {R : State → State → Prop} {s s' : State} (hagenda : s'.agenda = s.agenda)
    (hhost : ∀ acc rest,
      SameOutcome R (hostTurn acc { s with agenda := rest }) (hostTurn acc { s' with agenda := rest }))
    (hblock : ∀ rest, SameOutcome R (blockTurn { s with agenda := rest }) (blockTurn { s' with agenda := rest }))
    (hreset : ∀ rest, R (resetTurn { s with agenda := rest }) (resetTurn { s' with agenda := rest })) :
    SameOutcome R (step s) (step s') := by
  cases h : s.agenda with
  | nil =>
    have hs : { s with agenda := [] } = s := by rw [← h]
    have hs' : { s' with agenda := [] } = s' := by rw [← h, ← hagenda]
    rw [step_nil h, step_nil (hagenda.trans h)]
    have hnil := hblock []
    rwa [hs, hs'] at hnil
  | cons u rest =>
    rw [step_cons h, step_cons (hagenda.trans h)]
    cases u with
    | host acc => exact hhost acc rest
    | block => exact hblock rest
    | reset => exact .next (hreset rest)

/-! ### Updates that no host access sees -/

/-- The update g overwrites what no host access reads and no register write stores to: accesses see the same values
before and after it, and what they write commutes with it. -/
structure HostBlind (g : State → State) : Prop where
  status : ∀ s, (g s).status = s.status
  draws : ∀ s, (g s).draws = s.draws
  value : ∀ r s, Reg.value r (g s) = r.value s
  setStatus : ∀ st s, { g s with status := st } = g { s with status := st }
  setDraws : ∀ n s, { g s with draws := n } = g { s with draws := n }
  setBus : ∀ b s, { g s with bus := b } = g { s with bus := b }
  store : ∀ r w s, Reg.store r w (g s) = g (r.store w s)

/-- V is not host-visible (10_state.md R37). -/
theorem hostBlind_withV (x : DWord) : HostBlind (State.withV x) where
  status _ := rfl
  draws _ := rfl
  value r _ := by cases r <;> rfl
  setStatus _ _ := rfl
  setDraws _ _ := rfl
  setBus _ _ := rfl
  store r _ _ := by cases r <;> rfl

/-- CUR is not host-visible (10_state.md R39). -/
theorem hostBlind_withCur (w : Word) : HostBlind (State.withCur w) where
  status _ := rfl
  draws _ := rfl
  value r _ := by cases r <;> rfl
  setStatus _ _ := rfl
  setDraws _ _ := rfl
  setBus _ _ := rfl
  store r _ _ := by cases r <;> rfl

namespace HostBlind

variable {g : State → State} (hg : HostBlind g)
include hg

theorem readReg_comm (r : Reg) (s : State) : readReg r (g s) = readReg r s := by
  unfold readReg
  rw [hg.status, hg.draws, hg.value]

theorem afterRead_comm (r : Reg) (s : State) : afterRead r (g s) = g (afterRead r s) := by
  unfold afterRead
  by_cases hfree : (s.status.busy && r.isResult) = true
  · rw [if_pos hfree, if_pos (by rwa [hg.status]), hg.draws]
    exact hg.setDraws _ s
  · rw [if_neg hfree, if_neg (by rwa [hg.status])]

/-- Register writes commute with g, given that an issue does. -/
theorem writeReg_comm {r : Reg} {w : Word} {s : State}
    (hissue : r = .cmd → s.status.busy = false → issue w (g s) = g (issue w s)) :
    writeReg r w (g s) = g (writeReg r w s) := by
  have hdrop : dropWrite (g s) = g (dropWrite s) := by
    unfold dropWrite; rw [hg.status]; exact hg.setStatus _ s
  unfold writeReg
  rw [hg.status, hdrop, hg.store]
  split
  · exact hg.setStatus _ s
  · split
    · rfl
    · split
      · rfl
      · rename_i hbusy
        split
        · rename_i hcmd; exact hissue hcmd (by simpa using hbusy)
        · rfl

/-- A host turn has the same outcome and response from `g s` as from s, and keeps the difference. -/
theorem hostTurn_comm {acc : Access} {s : State}
    (hissue : ∀ w, acc = .write (Reg.addr .cmd) 32 w → s.status.busy = false → issue w (g s) = g (issue w s)) :
    SameOutcome (fun t t' => t' = g t) (hostTurn acc s) (hostTurn acc (g s)) := by
  rcases hostTurn_cases acc s with ⟨hrefused, hf⟩ | ⟨r, w, rfl, hn⟩ | ⟨r, rfl, hn⟩
  · rcases hostTurn_cases acc (g s) with ⟨-, hf'⟩ | ⟨r, w, rfl, -⟩ | ⟨r, rfl, -⟩
    · rw [hf, hf']; exact .fault _
    · exact absurd (by simp [Access.accepted]) hrefused
    · exact absurd (by simp [Access.accepted]) hrefused
  · rw [hn, hostTurn_write, hg.writeReg_comm fun hr => hissue w (hr ▸ rfl)]; exact .next (hg.setBus _ _)
  · rw [hn, hostTurn_read, hg.readReg_comm, hg.afterRead_comm]; exact .next (hg.setBus _ _)

/-- If g leaves s as it is, it leaves the state after a host turn as it is: the turn does not write what g writes. -/
theorem hostTurn_fixed {acc : Access} {s t : State} (hfixed : g s = s)
    (hissue : ∀ w, acc = .write (Reg.addr .cmd) 32 w → s.status.busy = false → issue w (g s) = g (issue w s))
    (ht : hostTurn acc s = .next t) : g t = t := by
  have h := hg.hostTurn_comm hissue
  rw [hfixed, ht] at h
  cases h with
  | next h => exact h.symm

end HostBlind

/-! ### Flags that a host turn does not raise -/

section
variable {acc : Access} {s t : State}

theorem hostTurn_keeps_vvalid_false (hv : s.status.vvalid = false) (ht : hostTurn acc s = .next t) :
    t.status.vvalid = false := by
  have hmove := hostTurn_statusMove (s := { s with agenda := [.host acc] }) (rest := s.agenda) rfl ht
  by_contra h
  obtain ⟨⟨-, hempty | hblock⟩, -⟩ := hmove.vvalid_rises hv (by simpa using h)
  · cases hempty
  · cases hblock

theorem hostTurn_keeps_idle (hidle : s.status.busy = false) (hno : ∀ w, acc ≠ .write (Reg.addr .cmd) 32 w)
    (ht : hostTurn acc s = .next t) : t.status.busy = false := by
  have hmove := hostTurn_statusMove (s := { s with agenda := [.host acc] }) (rest := s.agenda) rfl ht
  by_contra h
  obtain ⟨w, -, hturn⟩ := hmove.busy_rises hidle (by simpa using h)
  cases hturn
  exact hno w rfl

end

/-! ### V while VVALID = 0 -/

/-- Without a FoldedValue WORD_ENC raises NoValue (42_encoders.md R130). -/
theorem exec_wordEnc_of_no_value {s : State} (hv : s.status.vvalid = false) : exec .wordEnc s = raise .noValue s :=
  if_pos hv

/-- Without a FoldedValue HEX_ENC raises NoValue (42_encoders.md R136). -/
theorem exec_hexEnc_of_no_value {s : State} (hv : s.status.vvalid = false) : exec .hexEnc s = raise .noValue s :=
  if_pos hv

/-- t and t' differ in V at most, and not at all where t shows V. -/
def DifferInHiddenV (t t' : State) : Prop := { t' with v := t.v } = t ∧ (t.status.vvalid = true → t' = t)

theorem DifferInHiddenV.refl (t : State) : DifferInHiddenV t t := ⟨rfl, fun _ => rfl⟩

theorem differInHiddenV_withV {t : State} (hv : t.status.vvalid = false) (x : DWord) :
    DifferInHiddenV t (t.withV x) :=
  ⟨rfl, fun hv' => absurd (hv'.symm.trans hv) (by decide)⟩

section
variable {s : State} (hv : s.status.vvalid = false) (x : DWord)
include hv

theorem hostTurn_withV (acc : Access) :
    SameOutcome DifferInHiddenV (hostTurn acc s) (hostTurn acc (s.withV x)) := by
  obtain ⟨f, hs, hs'⟩ | ⟨t, t', hs, hs', rfl⟩ :=
    ((hostBlind_withV x).hostTurn_comm (acc := acc) (s := s) fun _ _ _ => rfl).cases
  · rw [hs, hs']; exact .fault f
  · rw [hs, hs']; exact .next (differInHiddenV_withV (hostTurn_keeps_vvalid_false hv hs) x)

theorem raise_withV (k : ErrorKind) : SameOutcome DifferInHiddenV (raise k s) (raise k (s.withV x)) :=
  .next (differInHiddenV_withV (t := errorComplete k s) hv x)

theorem execFold_withV (alg : Alg) :
    SameOutcome DifferInHiddenV (execFold alg s) (execFold alg (s.withV x)) := by
  unfold execFold
  rw [State.withV_din]
  cases foldDigest alg s.din with
  | error k => exact raise_withV hv x k
  | ok y => exact .next (.refl (complete [] (s.withFolded y)))

theorem execHotpTrunc_withV (alg : Alg) :
    SameOutcome DifferInHiddenV (execHotpTrunc alg s) (execHotpTrunc alg (s.withV x)) := by
  unfold execHotpTrunc
  simp only [State.withV_digits, State.withV_toff, State.withV_din, State.withV_chk]
  cases macLen alg with
  | none => exact raise_withV hv x _
  | some len =>
    by_cases hdigits : s.digits < 6 ∨ 10 < s.digits
    · simp only [hdigits, ↓reduceIte]
      exact raise_withV hv x _
    · simp only [hdigits, ↓reduceIte]
      cases selectOffset s.toff len s.din with
      | none => exact raise_withV hv x _
      | some off =>
        refine .next (differInHiddenV_withV (t := complete _ (s.withSnum _)) ?_ x)
        exact hv

theorem execTotpCtr_withV : SameOutcome DifferInHiddenV (execTotpCtr s) (execTotpCtr (s.withV x)) := by
  unfold execTotpCtr
  simp only [State.withV_stepSeconds, State.withV_effectiveTime]
  by_cases hstep : s.stepSeconds = 0
  · simp only [hstep, ↓reduceIte]
    exact raise_withV hv x _
  · by_cases htime : s.effectiveTime < 0
    · simp only [hstep, htime, ↓reduceIte]
      exact raise_withV hv x _
    · simp only [hstep, htime, ↓reduceIte]
      refine .next (differInHiddenV_withV (t := complete _ (s.withCounter _)) ?_ x)
      exact hv

/-- The encoders alone read V, and turn a state with VVALID = 0 away; FOLD alone sets VVALID, and writes V then. -/
theorem exec_withV (i : Instr) : SameOutcome DifferInHiddenV (exec i s) (exec i (s.withV x)) := by
  cases i with
  | fold alg => exact execFold_withV hv x alg
  | wordEnc =>
    rw [exec_wordEnc_of_no_value hv, exec_wordEnc_of_no_value (s := s.withV x) hv]
    exact raise_withV hv x _
  | hexEnc =>
    rw [exec_hexEnc_of_no_value hv, exec_hexEnc_of_no_value (s := s.withV x) hv]
    exact raise_withV hv x _
  | ctrMsg => exact .next (differInHiddenV_withV (t := complete _ s) hv x)
  | hotpTrunc alg => exact execHotpTrunc_withV hv x alg
  | totpCtr => exact execTotpCtr_withV hv x

theorem blockTurn_withV : SameOutcome DifferInHiddenV (blockTurn s) (blockTurn (s.withV x)) := by
  unfold blockTurn
  rw [State.withV_status]
  split
  · unfold completeCurrent
    rw [show (s.withV x).cur = s.cur from rfl]
    cases decode s.cur with
    | ok i => exact exec_withV hv x i
    | error e => exact raise_withV hv x _
  · exact .next (differInHiddenV_withV hv x)

theorem step_withV : SameOutcome DifferInHiddenV (step s) (step (s.withV x)) :=
  step_sameOutcome rfl (fun acc rest => hostTurn_withV (s := { s with agenda := rest }) hv x acc)
    (fun rest => blockTurn_withV (s := { s with agenda := rest }) hv x) (fun _ => .refl _)

end

/-- Settles O38: a command turns V away while VVALID = 0 or overwrites it, and a host access is blind to it. -/
theorem unfoldedValueIsUnobservable : Obligations.UnfoldedValueIsUnobservable := by
  refine ⟨fun s x hv => (step_withV hv x).cases, fun s x acc rest hagenda => ?_⟩
  rw [step_cons hagenda, step_cons (s := { s with v := x }) hagenda]
  have hcomm := (hostBlind_withV x).hostTurn_comm (acc := acc) (s := { s with agenda := rest }) fun _ _ _ => rfl
  obtain hfault | ⟨t, _, hs, hs', rfl⟩ := hcomm.cases
  · exact .inl hfault
  · have hkept : t.withV s.v = t :=
      (hostBlind_withV s.v).hostTurn_fixed (s := { s with agenda := rest }) rfl (fun _ _ _ => rfl) hs
    exact .inr ⟨t, hs, hs', (congrArg State.v hkept).symm⟩

/-! ### CUR while BUSY = 0 -/

/-- t and t' differ in CUR at most, and not at all where a command is in flight in t. -/
def DifferInIdleCur (t t' : State) : Prop := { t' with cur := t.cur } = t ∧ (t.status.busy = true → t' = t)

theorem DifferInIdleCur.refl (t : State) : DifferInIdleCur t t := ⟨rfl, fun _ => rfl⟩

theorem differInIdleCur_withCur {t : State} (hidle : t.status.busy = false) (w : Word) :
    DifferInIdleCur t (t.withCur w) :=
  ⟨rfl, fun hbusy => absurd (hbusy.symm.trans hidle) (by decide)⟩

theorem writeReg_cmd_of_idle {s : State} (hidle : s.status.busy = false) (w : Word) :
    writeReg .cmd w s = issue w s := by
  simp [writeReg, Reg.isReadOnly, hidle]

section
variable {s : State} (hidle : s.status.busy = false) (w : Word)
include hidle

/-- An issue overwrites CUR; every other access is blind to it and leaves the machine idle. -/
theorem hostTurn_withCur (acc : Access) :
    SameOutcome DifferInIdleCur (hostTurn acc s) (hostTurn acc (s.withCur w)) := by
  by_cases hissue : ∃ w', acc = .write (Reg.addr .cmd) 32 w'
  · obtain ⟨w', rfl⟩ := hissue
    rw [hostTurn_write, hostTurn_write, writeReg_cmd_of_idle hidle, writeReg_cmd_of_idle (s := s.withCur w) hidle]
    exact .next (.refl { issue w' s with bus := .written })
  · have hno : ∀ w', acc ≠ .write (Reg.addr .cmd) 32 w' := fun w' h => hissue ⟨w', h⟩
    obtain ⟨f, hs, hs'⟩ | ⟨t, t', hs, hs', rfl⟩ :=
      ((hostBlind_withCur w).hostTurn_comm (s := s) fun w' h => absurd h (hno w')).cases
    · rw [hs, hs']; exact .fault f
    · rw [hs, hs']; exact .next (differInIdleCur_withCur (hostTurn_keeps_idle hidle hno hs) w)

theorem blockTurn_of_idle : blockTurn s = .next s := by
  simp [blockTurn, hidle]

theorem step_withCur : SameOutcome DifferInIdleCur (step s) (step (s.withCur w)) := by
  refine step_sameOutcome rfl (fun acc rest => hostTurn_withCur (s := { s with agenda := rest }) hidle w acc)
    (fun rest => ?_) (fun _ => .refl _)
  rw [blockTurn_of_idle (s := { s with agenda := rest }) hidle,
    blockTurn_of_idle (s := { s.withCur w with agenda := rest }) hidle]
  exact .next (differInIdleCur_withCur (t := { s with agenda := rest }) hidle w)

end

/-- Settles O39: while BUSY = 0 only an issue touches CUR, and overwrites it; while BUSY = 1 no access does. -/
theorem idleCommandWordIsUnobservable : Obligations.IdleCommandWordIsUnobservable := by
  refine ⟨fun s w hidle => (step_withCur hidle w).cases, fun s w acc rest hbusy hagenda => ?_⟩
  rw [step_cons hagenda, step_cons (s := { s with cur := w }) hagenda]
  have hnoIssue : ∀ {P : Prop}, s.status.busy = false → P := fun hidle => absurd (hbusy.symm.trans hidle) (by decide)
  have hcomm := (hostBlind_withCur w).hostTurn_comm (acc := acc) (s := { s with agenda := rest }) fun _ _ => hnoIssue
  obtain hfault | ⟨t, _, hs, hs', rfl⟩ := hcomm.cases
  · exact .inl hfault
  · have hkept : t.withCur s.cur = t :=
      (hostBlind_withCur s.cur).hostTurn_fixed (s := { s with agenda := rest }) rfl (fun _ _ => hnoIssue) hs
    exact .inr ⟨t, hs, hs', (congrArg State.cur hkept).symm⟩

end Sys2Proof.Machine
end

section
/-! What the host can do around a command in flight (20_memory.md R62, R69, R70, R73): which accesses are accepted, and
that while BUSY = 1 an accepted access leaves only a trace, in OVR and in the model's own fields, which no completion
reads. -/

namespace Sys2Proof.Machine

open Sys2Proof.Claims

/-! ### The trace of host accesses -/

/-- s with OVR and the model's own fields `bus` and `draws` overwritten: all that a host access can leave behind while a
command is in flight. -/
def State.withTrace (ovr : Bool) (bus : BusResponse) (draws : Nat) (s : State) : State :=
  { s with status := { s.status with ovr := ovr }, bus := bus, draws := draws }

/-- t is s but for a trace of host accesses. -/
def Traced (s t : State) : Prop := ∃ ovr bus draws, t = s.withTrace ovr bus draws

theorem Traced.trans {s t u : State} (hst : Traced s t) (htu : Traced t u) : Traced s u := by
  obtain ⟨_, _, _, rfl⟩ := hst
  obtain ⟨ovr, bus, draws, rfl⟩ := htu
  exact ⟨ovr, bus, draws, rfl⟩

theorem Traced.withBus {s t : State} (h : Traced s t) (bus : BusResponse) : Traced s { t with bus := bus } := by
  obtain ⟨ovr, _, draws, rfl⟩ := h
  exact ⟨ovr, bus, draws, rfl⟩

theorem Traced.withAgenda {s t : State} (h : Traced s t) (agenda : List Turn) :
    Traced { s with agenda := agenda } { t with agenda := agenda } := by
  obtain ⟨ovr, bus, draws, rfl⟩ := h
  exact ⟨ovr, bus, draws, rfl⟩

theorem Traced.busy {s t : State} (h : Traced s t) : t.status.busy = s.status.busy := by
  obtain ⟨_, _, _, rfl⟩ := h
  rfl

theorem Traced.agenda {s t : State} (h : Traced s t) : t.agenda = s.agenda := by
  obtain ⟨_, _, _, rfl⟩ := h
  rfl

/-- With the trace put back, the state is as it was. -/
theorem Traced.restore {s t : State} (h : Traced s t) :
    { t with status := { t.status with ovr := s.status.ovr }, bus := s.bus, draws := s.draws } = s := by
  obtain ⟨_, _, _, rfl⟩ := h
  rfl

/-! ### A host access while a command is in flight -/

/-- While BUSY = 1 a host write changes nothing but OVR (40_host_access.md R102, R103, R105). -/
theorem writeReg_traced {s : State} (hbusy : s.status.busy = true) (r : Reg) (w : Word) :
    Traced s (writeReg r w s) := by
  have hnotIdle : s.status.busy ≠ false := by simp [hbusy]
  rcases writeReg_cases r w s with ⟨-, hw⟩ | ⟨-, hw⟩ | ⟨-, hw⟩ | ⟨hidle, -⟩ | ⟨hidle, -⟩
  · exact ⟨s.status.ovr && !w.getLsbD 8, s.bus, s.draws, hw⟩
  · exact ⟨s.status.ovr, s.bus, s.draws, hw⟩
  · exact ⟨true, s.bus, s.draws, hw⟩
  · exact absurd hidle hnotIdle
  · exact absurd hidle hnotIdle

/-- A host read changes nothing of OTPPD (20_memory.md R66). -/
theorem afterRead_traced (r : Reg) (s : State) : Traced s (afterRead r s) := by
  unfold afterRead
  split
  · exact ⟨s.status.ovr, s.bus, s.draws + 1, rfl⟩
  · exact ⟨s.status.ovr, s.bus, s.draws, rfl⟩

/-- While BUSY = 1 a host turn is a fault or leaves only a trace. -/
theorem hostTurn_traced_cases {s : State} (hbusy : s.status.busy = true) (acc : Access) :
    (¬ acc.accepted ∧ hostTurn acc s = .fault (.busError acc)) ∨
      ∃ t, hostTurn acc s = .next t ∧ Traced s t := by
  rcases hostTurn_cases acc s with hfault | ⟨r, w, -, hn⟩ | ⟨r, -, hn⟩
  · exact .inl hfault
  · exact .inr ⟨_, hn, (writeReg_traced hbusy r w).withBus _⟩
  · exact .inr ⟨_, hn, (afterRead_traced r s).withBus _⟩

/-- Settles O54: the access was not refused, so it left only a trace. -/
theorem operandsFrozenWhileBusy : Obligations.OperandsFrozenWhileBusy := by
  intro s t acc rest hbusy hagenda ht
  rw [step_cons hagenda] at ht
  rcases hostTurn_traced_cases (s := { s with agenda := rest }) hbusy acc with ⟨-, hf⟩ | ⟨t', hn, htraced⟩
  · exact absurd (hf.symm.trans ht) (by simp)
  · cases hn.symm.trans ht
    exact (htraced.withAgenda s.agenda).restore

/-! ### Any number of accesses -/

/-- A run of accepted accesses while BUSY = 1 ends with a trace, however many there are. -/
theorem run_accesses_traced {turns : List Turn} : ∀ {accs : List Access} {s : State}, s.status.busy = true →
    (∀ a ∈ accs, a.accepted) → s.agenda = accs.map .host ++ turns →
    ∃ t, core.run accs.length s = .next t ∧ Traced { s with agenda := turns } t := by
  intro accs
  induction accs with
  | nil =>
    rintro s - - rfl
    exact ⟨s, rfl, s.status.ovr, s.bus, s.draws, rfl⟩
  | cons acc accs ih =>
    intro s hbusy haccepted hagenda
    obtain ⟨hhead, htail⟩ := List.forall_mem_cons.mp haccepted
    rcases hostTurn_traced_cases (s := { s with agenda := accs.map .host ++ turns }) hbusy acc with
      ⟨hrefused, -⟩ | ⟨s', hn, hs'⟩
    · exact absurd hhead hrefused
    · obtain ⟨t, hrun, ht⟩ := ih (hs'.busy.trans hbusy) htail hs'.agenda
      exact ⟨t, (run_succ _ ((step_cons hagenda).trans hn)).trans hrun, (hs'.withAgenda turns).trans ht⟩

/-! ### No completion reads the trace -/

section
variable (ovr : Bool) (bus : BusResponse) (draws : Nat) (s : State)

@[simp] theorem State.withTrace_vvalid : (s.withTrace ovr bus draws).status.vvalid = s.status.vvalid := rfl
@[simp] theorem State.withTrace_din : (s.withTrace ovr bus draws).din = s.din := rfl
@[simp] theorem State.withTrace_digits : (s.withTrace ovr bus draws).digits = s.digits := rfl
@[simp] theorem State.withTrace_toff : (s.withTrace ovr bus draws).toff = s.toff := rfl
@[simp] theorem State.withTrace_stepSeconds : (s.withTrace ovr bus draws).stepSeconds = s.stepSeconds := rfl
@[simp] theorem State.withTrace_effectiveTime : (s.withTrace ovr bus draws).effectiveTime = s.effectiveTime := rfl
@[simp] theorem State.withTrace_cur : (s.withTrace ovr bus draws).cur = s.cur := rfl

theorem raise_withTrace (k : ErrorKind) :
    SameOutcome Traced (raise k s) (raise k (s.withTrace ovr bus draws)) := .next ⟨ovr, bus, draws, rfl⟩

theorem execFold_withTrace (alg : Alg) :
    SameOutcome Traced (execFold alg s) (execFold alg (s.withTrace ovr bus draws)) := by
  unfold execFold
  rw [State.withTrace_din]
  cases foldDigest alg s.din with
  | error k => exact raise_withTrace ovr bus draws s k
  | ok x => exact .next ⟨ovr, bus, draws, rfl⟩

theorem execWordEnc_withTrace : SameOutcome Traced (execWordEnc s) (execWordEnc (s.withTrace ovr bus draws)) := by
  unfold execWordEnc
  rw [State.withTrace_vvalid]
  split
  · exact raise_withTrace ovr bus draws s _
  · exact .next ⟨ovr, bus, draws, rfl⟩

theorem execHexEnc_withTrace : SameOutcome Traced (execHexEnc s) (execHexEnc (s.withTrace ovr bus draws)) := by
  unfold execHexEnc
  rw [State.withTrace_vvalid]
  split
  · exact raise_withTrace ovr bus draws s _
  · exact .next ⟨ovr, bus, draws, rfl⟩

theorem execHotpTrunc_withTrace (alg : Alg) :
    SameOutcome Traced (execHotpTrunc alg s) (execHotpTrunc alg (s.withTrace ovr bus draws)) := by
  unfold execHotpTrunc
  rw [State.withTrace_digits, State.withTrace_toff, State.withTrace_din]
  cases macLen alg with
  | none => exact raise_withTrace ovr bus draws s _
  | some len =>
    dsimp only
    split
    · exact raise_withTrace ovr bus draws s _
    · cases selectOffset s.toff len s.din with
      | none => exact raise_withTrace ovr bus draws s _
      | some off => exact .next ⟨ovr, bus, draws, rfl⟩

theorem execTotpCtr_withTrace : SameOutcome Traced (execTotpCtr s) (execTotpCtr (s.withTrace ovr bus draws)) := by
  unfold execTotpCtr
  rw [State.withTrace_stepSeconds, State.withTrace_effectiveTime]
  split
  · exact raise_withTrace ovr bus draws s _
  · split
    · exact raise_withTrace ovr bus draws s _
    · exact .next ⟨ovr, bus, draws, rfl⟩

theorem exec_withTrace (i : Instr) : SameOutcome Traced (exec i s) (exec i (s.withTrace ovr bus draws)) := by
  cases i with
  | fold alg => exact execFold_withTrace ovr bus draws s alg
  | wordEnc => exact execWordEnc_withTrace ovr bus draws s
  | hexEnc => exact execHexEnc_withTrace ovr bus draws s
  | ctrMsg => exact .next ⟨ovr, bus, draws, rfl⟩
  | hotpTrunc alg => exact execHotpTrunc_withTrace ovr bus draws s alg
  | totpCtr => exact execTotpCtr_withTrace ovr bus draws s

theorem completeCurrent_withTrace :
    SameOutcome Traced (completeCurrent s) (completeCurrent (s.withTrace ovr bus draws)) := by
  unfold completeCurrent
  rw [State.withTrace_cur]
  cases decode s.cur with
  | ok i => exact exec_withTrace ovr bus draws s i
  | error e => exact raise_withTrace ovr bus draws s _

end

/-- The Block's turn while BUSY = 1 is the completion (60_exceptions.md R184). -/
theorem step_block_of_busy {s : State} {rest : List Turn} (hbusy : s.status.busy = true)
    (hagenda : s.agenda = .block :: rest) : step s = completeCurrent { s with agenda := rest } :=
  (step_cons hagenda).trans (if_pos hbusy)

/-- Completions from states that differ in a trace leave states that differ in a trace. -/
theorem step_block_traced {s s' t : State} {rest : List Turn} (hbusy : s.status.busy = true)
    (hagenda : s.agenda = .block :: rest) (hs' : Traced s s') (ht : step s = .next t) :
    ∃ t', step s' = .next t' ∧ Traced t t' := by
  obtain ⟨ovr, bus, draws, rfl⟩ := hs'
  rw [step_block_of_busy hbusy hagenda] at ht
  rw [step_block_of_busy (s := s.withTrace ovr bus draws) hbusy hagenda]
  have hsame := completeCurrent_withTrace ovr bus draws { s with agenda := rest }
  rw [ht] at hsame
  obtain ⟨_, hfault, -⟩ | ⟨_, t', hn, hn', htraced⟩ := hsame.cases
  · cases hfault
  · cases hn
    exact ⟨t', hn', htraced⟩

/-- Settles O55: the accesses leave a trace, and the completion does not read it. -/
theorem completionIgnoresLatency : Obligations.CompletionIgnoresLatency := by
  intro s t0 accs rest hbusy hacc hstep
  obtain ⟨s', hrun, hs'⟩ := run_accesses_traced
    (s := { s with agenda := accs.map .host ++ .block :: rest }) hbusy hacc rfl
  obtain ⟨t, ht, htraced⟩ := step_block_traced (s := { s with agenda := .block :: rest }) hbusy rfl hs' hstep
  exact ⟨t, (run_add hrun).trans (run_succ 0 ht), htraced.restore⟩

/-! ### Which accesses are accepted -/

theorem Reg.offset_mapped (r : Reg) : mappedOffset r.offset := by
  cases r with
  | widx k | din k | dout k => simp only [Reg.offset, mappedOffset]; omega
  | _ => simp [Reg.offset, mappedOffset]

/-- Every offset that 10_state.md R23 maps has its register. -/
theorem exists_reg_of_mappedOffset {o : Nat} (h : mappedOffset o) : ∃ r : Reg, r.offset = o := by
  obtain ⟨h4, hlow | hcounter | hwidx | hdin | hdout⟩ := h
  · have hreg : ∀ k : Fin 7, ∃ r ∈ allRegs, r.offset = 4 * k.val := by decide
    obtain ⟨r, -, hr⟩ := hreg ⟨o / 4, by omega⟩
    exact ⟨r, hr.trans (Nat.mul_div_cancel' (Nat.dvd_of_mod_eq_zero h4))⟩
  · have hreg : ∀ k : Fin 5, ∃ r ∈ allRegs, r.offset = 0x020 + 4 * k.val := by decide
    obtain ⟨r, -, hr⟩ := hreg ⟨(o - 0x020) / 4, by omega⟩
    exact ⟨r, hr.trans (by dsimp only; omega)⟩
  · exact ⟨.widx ⟨(o - 0x040) / 4, by omega⟩, by simp only [Reg.offset]; omega⟩
  · exact ⟨.din ⟨(o - 0x100) / 4, by omega⟩, by simp only [Reg.offset]; omega⟩
  · exact ⟨.dout ⟨(o - 0x200) / 4, by omega⟩, by simp only [Reg.offset]; omega⟩

/-- An access reaches a register exactly on the condition of 20_memory.md R62. -/
theorem accessReg_isSome_iff (a size : Nat) :
    (accessReg a size).isSome ↔ size = 32 ∧ Config.base ≤ a ∧ mappedOffset (a - Config.base) := by
  constructor
  · intro h
    obtain ⟨r, hr⟩ := Option.isSome_iff_exists.mp h
    obtain ⟨rfl, rfl⟩ := accessReg_some hr
    rw [Reg.addr, Nat.add_sub_cancel_left]
    exact ⟨rfl, Nat.le_add_right _ _, r.offset_mapped⟩
  · rintro ⟨rfl, hbase, hmapped⟩
    obtain ⟨r, hr⟩ := exists_reg_of_mappedOffset hmapped
    have haddr : a = r.addr := by rw [Reg.addr, hr, Nat.add_sub_cancel' hbase]
    rw [haddr, accessReg_addr]
    rfl

/-- A refused access changes nothing (40_host_access.md R107). -/
theorem busAccess_of_refused {acc : Access} (h : ¬ acc.accepted) (s : State) : busAccess acc s = (.busError, s) := by
  cases acc with
  | write a size w =>
    have hnone : accessReg a size = none := Option.not_isSome_iff_eq_none.mp h
    simp only [busAccess, hnone]
  | read a size =>
    have hnone : accessReg a size = none := Option.not_isSome_iff_eq_none.mp h
    simp only [busAccess, hnone]

/-- A refused access is a fault of the host's step (40_host_access.md R107). -/
theorem hostTurn_of_refused {acc : Access} (h : ¬ acc.accepted) (s : State) :
    hostTurn acc s = .fault (.busError acc) := by
  simp only [hostTurn, busAccess_of_refused h]

/-- Settles O45: acceptance is reaching a register. -/
theorem refusedAccessIsBusError : Obligations.RefusedAccessIsBusError :=
  ⟨fun a size _ => accessReg_isSome_iff a size, accessReg_isSome_iff, fun _ s h =>
    ⟨busAccess_of_refused h s, fun _ hagenda => (step_cons hagenda).trans (hostTurn_of_refused h _)⟩⟩

end Sys2Proof.Machine
end

section
/-! The decoder and the encoder (30_encoding.md R80 to R86): decode undoes encode, and every word is either one of R86's
illegal words or the word of a well-formed command. -/

namespace Sys2Proof

open Sys2Proof.Claims

/-! ### The fields of a word as numbers (30_encoding.md R80) -/

theorem opField_eq_iff {w : Word} {op : BitVec 4} : opField w = op ↔ w.toNat % 16 = op.toNat := by
  simp [opField, ← BitVec.toNat_inj, BitVec.extractLsb'_toNat]

theorem algField_toNat (w : Word) : (algField w).toNat = w.toNat / 16 % 8 := by
  simp [algField, BitVec.extractLsb'_toNat, Nat.shiftRight_eq_div_pow]

theorem algField_eq_zero_iff {w : Word} : algField w = 0 ↔ w.toNat / 16 % 8 = 0 := by
  rw [← algField_toNat, ← BitVec.toNat_inj]
  rfl

theorem rsvField_eq_zero_iff {w : Word} : rsvField w = 0 ↔ w.toNat / 128 = 0 := by
  have hw := w.isLt
  simp only [rsvField, ← BitVec.toNat_inj, BitVec.extractLsb'_toNat, Nat.shiftRight_eq_div_pow, BitVec.toNat_ofNat,
    BitVec.ofNat_eq_ofNat]
  omega

theorem commandWord_toNat (op : BitVec 4) (alg : BitVec 3) :
    (commandWord op alg).toNat = alg.toNat * 16 + op.toNat := by
  rw [commandWord, Machine.toNat_append_eq, Machine.toNat_append_eq]
  simp

/-! ### Decoding an encoding -/

@[simp] theorem algless_zero (i : Instr) : algless 0#3 i = .ok i := rfl

theorem algless_of_ne_zero {alg : BitVec 3} (h : alg ≠ 0) (i : Instr) : algless alg i = .error .algOnAlgless :=
  if_pos h

/-- Decoding goes by the fields, which a word put together from fields gives back. -/
theorem decode_encode {i : Instr} (h : i.WellFormed) : decode (encode i) = .ok i := by
  cases i with
  | fold alg | hotpTrunc alg => simp [decode, encode, Alg.ofCode_code (a := alg) h]
  | wordEnc | hexEnc | ctrMsg | totpCtr => simp [decode, encode]

/-- Settles O5: `decode_encode`, for every well-formed command. -/
theorem decodeOfEncode : Obligations.DecodeOfEncode := fun _ => decode_encode

/-! ### Every word is illegal or an encoding -/

/-- Each line of R86 ends in an error of the decoder. -/
theorem decode_error_of_illegalBits {w : Word} (h : IllegalBits w) : ∃ e, decode w = .error e := by
  by_cases hrsv : rsvField w = 0
  · obtain hop | ⟨hop, halg⟩ : (w.toNat % 16 = 0 ∨ 7 ≤ w.toNat % 16) ∨
        (w.toNat % 16 = 2 ∨ w.toNat % 16 = 3 ∨ w.toNat % 16 = 4 ∨ w.toNat % 16 = 6) ∧ w.toNat / 16 % 8 ≠ 0 := by
      have hrsv' := rsvField_eq_zero_iff.mp hrsv
      unfold IllegalBits at h
      tauto
    · have hne : ∀ op : BitVec 4, 1 ≤ op.toNat → op.toNat ≤ 6 → opField w ≠ op := fun op h1 h6 heq => by
        have := opField_eq_iff.mp heq
        omega
      exact ⟨.reservedOp, by simp [decode, hrsv, hne]⟩
    · have halg' := algless_of_ne_zero (mt algField_eq_zero_iff.mp halg)
      have hop' : opField w = 2 ∨ opField w = 3 ∨ opField w = 4 ∨ opField w = 6 := by simpa [opField_eq_iff] using hop
      exact ⟨.algOnAlgless, by rcases hop' with hop | hop | hop | hop <;> simp [decode, hrsv, hop, halg']⟩
  · exact ⟨.reservedBits, if_pos hrsv⟩

/-- A word with RSV = 0 is the word of its other two fields. -/
theorem commandWord_of_fields {w : Word} {op : BitVec 4} (hrsv : w.toNat / 128 = 0) (hop : w.toNat % 16 = op.toNat) :
    commandWord op (algField w) = w := by
  apply BitVec.eq_of_toNat_eq
  rw [commandWord_toNat, algField_toNat]
  omega

/-- A word that breaks none of R86's rules is the word of the command its fields name (30_encoding.md R81, R82). -/
theorem illegalBits_or_encoding (w : Word) : IllegalBits w ∨ ∃ i : Instr, i.WellFormed ∧ encode i = w := by
  refine or_iff_not_imp_left.mpr fun hlegal => ?_
  have hrsv : w.toNat / 128 = 0 := by unfold IllegalBits at hlegal; omega
  obtain hop | hop | hw | hw | hw | hw : w.toNat % 16 = 1 ∨ w.toNat % 16 = 5 ∨ w.toNat = 2 ∨ w.toNat = 3 ∨
      w.toNat = 4 ∨ w.toNat = 6 := by unfold IllegalBits at hlegal; omega
  · exact ⟨.fold (.ofCode (algField w)), Alg.wf_ofCode _, by
      rw [encode, Alg.code_ofCode]; exact commandWord_of_fields hrsv hop⟩
  · exact ⟨.hotpTrunc (.ofCode (algField w)), Alg.wf_ofCode _, by
      rw [encode, Alg.code_ofCode]; exact commandWord_of_fields hrsv hop⟩
  · exact ⟨.wordEnc, rfl, BitVec.eq_of_toNat_eq hw.symm⟩
  · exact ⟨.hexEnc, rfl, BitVec.eq_of_toNat_eq hw.symm⟩
  · exact ⟨.ctrMsg, rfl, BitVec.eq_of_toNat_eq hw.symm⟩
  · exact ⟨.totpCtr, rfl, BitVec.eq_of_toNat_eq hw.symm⟩

/-- A word that decodes is the word of the command it decodes to. -/
theorem encoding_of_decode {w : Word} {i : Instr} (h : decode w = .ok i) : i.WellFormed ∧ encode i = w := by
  rcases illegalBits_or_encoding w with hillegal | ⟨j, hwf, rfl⟩
  · obtain ⟨e, he⟩ := decode_error_of_illegalBits hillegal
    cases h.symm.trans he
  · cases (decode_encode hwf).symm.trans h
    exact ⟨hwf, rfl⟩

/-- Settles O6: a word is illegal, and then does not decode, or an encoding, which decodes to its own command. -/
theorem decodedWordIsEncoding : Obligations.DecodedWordIsEncoding := fun _ _ => encoding_of_decode

/-- The decoder rejects exactly the words of R86. -/
theorem decode_error_iff (w : Word) : (∃ e, decode w = .error e) ↔ IllegalBits w := by
  refine ⟨fun ⟨e, he⟩ => (illegalBits_or_encoding w).resolve_right ?_, decode_error_of_illegalBits⟩
  rintro ⟨i, hwf, rfl⟩
  cases (decode_encode hwf).symm.trans he

/-- Settles O8: each word is the encoding of its command. -/
theorem tableWordsDecode : Obligations.TableWordsDecode :=
  ⟨decode_encode (i := .fold .md4) rfl, decode_encode (i := .fold .md5) rfl, decode_encode (i := .fold .sha1) rfl,
    decode_encode (i := .wordEnc) rfl, decode_encode (i := .hexEnc) rfl, decode_encode (i := .ctrMsg) rfl,
    decode_encode (i := .hotpTrunc .sha1) rfl, decode_encode (i := .hotpTrunc .sha256) rfl,
    decode_encode (i := .hotpTrunc .sha512) rfl, decode_encode (i := .totpCtr) rfl⟩

end Sys2Proof
end

section
/-! What a completion leaves unchanged (60_exceptions.md R184, R185; 30_encoding.md R84), on success and on error, and
how an illegal word is issued and completes (30_encoding.md R86). -/

namespace Sys2Proof.Claims

open Sys2Proof.Machine

theorem InputsKept.refl (s : State) : InputsKept s s :=
  ⟨rfl, rfl, rfl, rfl, fun _ => rfl, rfl, rfl, rfl, rfl, rfl⟩

/-- `InputsKept` reads the configuration registers, DIN, CUR, OVR and the model's own fields, and no other field. -/
theorem InputsKept.congr {s t u : State} (h : InputsKept s t) (hhotpCfg : u.hotpCfg = t.hotpCfg := by rfl)
    (htotpStep : u.totpStep = t.totpStep := by rfl) (htotpTime : u.totpTime = t.totpTime := by rfl)
    (htotpUtcoff : u.totpUtcoff = t.totpUtcoff := by rfl) (hdin : u.din = t.din := by rfl)
    (hcur : u.cur = t.cur := by rfl) (hovr : u.status.ovr = t.status.ovr := by rfl)
    (hagenda : u.agenda = t.agenda := by rfl) (hbus : u.bus = t.bus := by rfl) (hdraws : u.draws = t.draws := by rfl) :
    InputsKept s u where
  hotpCfg := hhotpCfg.trans h.hotpCfg
  totpStep := htotpStep.trans h.totpStep
  totpTime := htotpTime.trans h.totpTime
  totpUtcoff := htotpUtcoff.trans h.totpUtcoff
  din a := by rw [hdin, h.din]
  cur := hcur.trans h.cur
  ovr := hovr.trans h.ovr
  agenda := hagenda.trans h.agenda
  bus := hbus.trans h.bus
  draws := hdraws.trans h.draws

end Sys2Proof.Claims

namespace Sys2Proof.Machine

open Sys2Proof.Claims

/-! ### The frame of a command -/

/-- What a command of i leaves unchanged between s and t (30_encoding.md R84). -/
structure Framed (i : Instr) (s t : State) : Prop where
  inputs : InputsKept s t
  dout : ∀ a, 32 ≤ a → t.dout.read a = s.dout.read a
  value : (∀ alg, i ≠ .fold alg) → ValueKept s t
  words : i ≠ .wordEnc → WordsKept s t
  snum : (∀ alg, i ≠ .hotpTrunc alg) → t.snum = s.snum
  counter : i ≠ .totpCtr → t.counter = s.counter

theorem Framed.refl (i : Instr) (s : State) : Framed i s s :=
  ⟨.refl s, fun _ _ => rfl, fun _ => ⟨rfl, rfl⟩, fun _ => ⟨rfl, rfl⟩, fun _ => rfl, fun _ => rfl⟩

/-- A completion writes no byte of DOUT past its 32 (20_memory.md R67). -/
theorem Memory.read_withOutput_above {m : Memory} {out : List Byte} {a : Nat} (hout : out.length ≤ 32) (ha : 32 ≤ a) :
    (m.withOutput out).read a = m.read a := by
  rw [Memory.read_withOutput hout, if_neg (by omega)]

/-- A success completion writes DOUT, DOUT_LEN and STATUS without VVALID and OVR. -/
theorem Framed.complete {i : Instr} {s u : State} (h : Framed i s u) {out : List Byte} (hout : out.length ≤ 32) :
    Framed i s (complete out u) where
  inputs := h.inputs.congr
  dout a ha := (Memory.read_withOutput_above hout ha).trans (h.dout a ha)
  value := h.value
  words := h.words
  snum := h.snum
  counter := h.counter

/-- An error completion writes no more than a success completion does. -/
theorem errorComplete_framed (i : Instr) (k : ErrorKind) (s : State) : Framed i s (errorComplete k s) where
  inputs := (InputsKept.refl s).congr
  dout _ ha := Memory.read_withOutput_above (Nat.zero_le 32) ha
  value _ := ⟨rfl, rfl⟩
  words _ := ⟨rfl, rfl⟩
  snum _ := rfl
  counter _ := rfl

/-- The registers that a command writes before it completes are its own. -/
theorem OwnWrites.framed {i : Instr} {s u : State} (h : OwnWrites i s u) : Framed i s u := by
  have hinputs := InputsKept.refl s
  cases i with
  | fold alg =>
    obtain ⟨x, rfl⟩ := h
    exact ⟨hinputs.congr, fun _ _ => rfl, fun hne => absurd rfl (hne alg), fun _ => ⟨rfl, rfl⟩, fun _ => rfl,
      fun _ => rfl⟩
  | wordEnc =>
    obtain ⟨p, idx, rfl⟩ := h
    exact ⟨hinputs.congr, fun _ _ => rfl, fun _ => ⟨rfl, rfl⟩, fun hne => absurd rfl hne, fun _ => rfl, fun _ => rfl⟩
  | hotpTrunc alg =>
    obtain ⟨n, rfl⟩ := h
    exact ⟨hinputs.congr, fun _ _ => rfl, fun _ => ⟨rfl, rfl⟩, fun _ => ⟨rfl, rfl⟩, fun hne => absurd rfl (hne alg),
      fun _ => rfl⟩
  | totpCtr =>
    obtain ⟨c, rfl⟩ := h
    exact ⟨hinputs.congr, fun _ _ => rfl, fun _ => ⟨rfl, rfl⟩, fun _ => ⟨rfl, rfl⟩, fun _ => rfl,
      fun hne => absurd rfl hne⟩
  | hexEnc | ctrMsg =>
    rw [show u = s from h]
    exact .refl _ s

theorem exec_framed {i : Instr} {s t : State} (ht : exec i s = .next t) : Framed i s t := by
  rcases exec_cases i s with ⟨k, -, hn⟩ | ⟨out, u, hout, hu, hn⟩
  · cases hn.symm.trans ht; exact errorComplete_framed i k s
  · cases hn.symm.trans ht; exact hu.framed.complete hout

/-- Settles O16: a completion writes the results that all commands share, and before it a command only its own. -/
theorem commandFrame : Obligations.CommandFrame := by
  intro i s t ht
  have h := exec_framed ht
  exact ⟨h.inputs, h.dout, h.value, h.words, h.snum, h.counter⟩

/-! ### Writes of the host program -/

/-- The agenda is the model's own: no register write reads it or stores to it. -/
theorem writeReg_withAgenda (r : Reg) (w : Word) (s : State) (agenda : List Turn) :
    writeReg r w { s with agenda := agenda } = { writeReg r w s with agenda := agenda } := by
  have hstore : r.store w { s with agenda := agenda } = { r.store w s with agenda := agenda } := by cases r <;> rfl
  unfold writeReg
  rw [hstore]
  repeat' split
  all_goals rfl

/-- A statement's write is accepted and does what `writeReg` says (40_host_access.md R100). -/
theorem step_wr (s : State) (r : Reg) (w : Word) : AfterWrite s r w (writeReg r w s) := by
  intro rest
  have hstep : step { s with agenda := wr r w :: rest } = hostTurn (.write r.addr 32 w) { s with agenda := rest } :=
    step_cons (s := { s with agenda := wr r w :: rest }) rfl
  rw [hstep, hostTurn_write, writeReg_withAgenda]

/-- A write to CMD while BUSY = 0 issues the command (40_host_access.md R104). -/
theorem step_wr_cmd_of_idle {s : State} (hidle : s.status.busy = false) (w : Word) : AfterWrite s .cmd w (issue w s) :=
  writeReg_cmd_of_idle hidle w ▸ step_wr s .cmd w

/-! ### Illegal words -/

/-- The error completion has every effect of 60_exceptions.md R185 and no other. -/
theorem errorComplete_errorCompleted (k : ErrorKind) (s : State) :
    ErrorCompleted k.code.toNat s (errorComplete k s) := by
  have hout (a : Nat) := Memory.read_withOutput (m := s.dout) (out := []) (Nat.zero_le 32) a
  have houtput : Output s (errorComplete k s) [] :=
    ⟨rfl, fun a ha => (hout a).trans (if_pos ha), fun a ha => (hout a).trans (if_neg (by omega))⟩
  exact ⟨rfl, rfl, rfl, rfl, houtput, (InputsKept.refl s).congr, ⟨rfl, rfl⟩, ⟨rfl, rfl⟩, rfl, rfl⟩

/-- A word that does not decode completes with IllegalCommand (30_encoding.md R86). -/
theorem completeCurrent_of_illegalBits {s : State} (h : IllegalBits s.cur) :
    completeCurrent s = .next (errorComplete .illegalCommand s) := by
  obtain ⟨e, he⟩ := decode_error_of_illegalBits h
  simp only [completeCurrent, he, raise]

/-- Settles O7: R86's words are the decoder's errors; an issue does not look at the word, and the completion decodes
it. -/
theorem illegalWordsCompleteWithError : Obligations.IllegalWordsCompleteWithError := by
  refine ⟨decode_error_iff, fun s w _ hidle => step_wr_cmd_of_idle hidle w, fun s rest hillegal hbusy hagenda => ?_⟩
  refine ⟨errorComplete .illegalCommand { s with agenda := rest }, ?_, errorComplete_errorCompleted .illegalCommand _⟩
  exact (step_block_of_busy hbusy hagenda).trans (completeCurrent_of_illegalBits hillegal)

end Sys2Proof.Machine
end

section
/-! The statements of a host program that take several turns (30_encoding.md R92): WR64, LOADIN and EXEC. -/

namespace Sys2Proof.Machine

open Sys2Proof.Claims

/-! ### Runs that begin with a write or a poll -/

/-- A write to a read-write register while BUSY = 0 is stored (40_host_access.md R108). -/
theorem step_wr_of_idle {s : State} (hidle : s.status.busy = false) (r : Reg) (w : Word)
    (hstatus : r ≠ .status := by simp) (hro : r.isReadOnly = false := by rfl) (hcmd : r ≠ .cmd := by simp) :
    AfterWrite s r w (r.store w s) := by
  have hstore : writeReg r w s = r.store w s := by simp [writeReg, hstatus, hro, hidle, hcmd]
  exact hstore ▸ step_wr s r w

/-- A run that begins with a write goes on from the state after it. -/
theorem run_wr {s t : State} {r : Reg} {w : Word} (h : AfterWrite s r w t) (k : Nat) (rest : List Turn) :
    core.run (k + 1) { s with agenda := wr r w :: rest } = core.run k { t with agenda := rest, bus := .written } :=
  run_succ k (h rest)

/-- A run of two writes. -/
theorem run_wr_wr {s t u : State} {r r' : Reg} {w w' : Word} (h : AfterWrite s r w t)
    (h' : AfterWrite { t with bus := .written } r' w' u) (rest : List Turn) :
    core.run 2 { s with agenda := wr r w :: wr r' w' :: rest } = .next { u with agenda := rest, bus := .written } :=
  (run_wr h 1 (wr r' w' :: rest)).trans (run_wr h' 0 rest)

theorem withAgenda_of_eq {s : State} {turns : List Turn} (h : s.agenda = turns) : { s with agenda := turns } = s := by
  rw [← h]

/-- A run that begins with a poll of STATUS goes on from the same state (40_host_access.md R101). -/
theorem run_poll {s : State} {turns : List Turn} (hagenda : s.agenda = rd .status :: turns) (k : Nat) :
    core.run (k + 1) s = core.run k { s with agenda := turns, bus := .data (Reg.value .status s) } := by
  have hstep := step_rd_of_not_result s (r := .status) rfl turns
  rw [withAgenda_of_eq hagenda] at hstep
  exact run_succ k hstep

/-! ### WR64 (10_state.md R42) -/

/-- Both halves of a pair written leave nothing of the old value (10_state.md R42). -/
theorem withHigh_withLow_halves (x y : DWord) : withHigh (withLow x (lowHalf y)) (highHalf y) = y := by
  have hlow : lowHalf (withLow x (lowHalf y)) = lowHalf y := by
    simp only [withLow, lowHalf, highHalf]
    exact BitVec.extractLsb'_append_eq_right
  rw [withHigh, hlow]
  exact (BitVec.extractLsb'_append_extractLsb'_eq_extractLsb' (len₁ := 32) (len₂ := 32) rfl).trans
    BitVec.extractLsb'_eq_self

/-- Settles O51: each of the two writes is stored, and the second keeps the half that the first wrote. -/
theorem pairWritesStoreBothHalves : Obligations.PairWritesStoreBothHalves := by
  intro s x rest hidle
  have hhalves (y : DWord) := withHigh_withLow_halves y (BitVec.ofInt 64 x)
  constructor
  · refine (run_wr_wr (step_wr_of_idle hidle .totpTimeLo _) (step_wr_of_idle ?_ .totpTimeHi _) rest).trans ?_
    · exact hidle
    · simp only [Reg.store, hhalves]
  · refine (run_wr_wr (step_wr_of_idle hidle .counterLo _) (step_wr_of_idle ?_ .counterHi _) rest).trans ?_
    · exact hidle
    · simp only [Reg.store, hhalves]

/-! ### LOADIN (20_memory.md R63) -/

/-- A multiple of 256^n adds nothing to the n bytes of a number (00_scope.md R11). -/
theorem beBytes_mul_pow_add (n x v : Nat) : beBytes n (x * 256 ^ n + v) = beBytes n v := by
  refine List.map_congr_left fun k hk => ?_
  have hpow : 256 ^ n = 256 ^ (n - 1 - k) * (256 ^ k * 256) := by
    rw [← pow_succ, ← pow_add]
    congr 1
    have := List.mem_range.mp hk
    omega
  have hshift : (x * 256 ^ n + v) / 256 ^ (n - 1 - k) = x * 256 ^ k * 256 + v / 256 ^ (n - 1 - k) := by
    rw [hpow, show x * (256 ^ (n - 1 - k) * (256 ^ k * 256)) = 256 ^ (n - 1 - k) * (x * 256 ^ k * 256) by ring,
      Nat.mul_add_div (by positivity)]
  apply BitVec.eq_of_toNat_eq
  rw [hshift, BitVec.toNat_ofNat, BitVec.toNat_ofNat]
  omega

/-- The bytes of the number that a byte sequence stands for (00_scope.md R11). -/
theorem beBytes_beNat (bs : List Byte) : beBytes bs.length (beNat bs) = bs := by
  induction bs with
  | nil => rfl
  | cons b bs ih =>
    have hhigh : (b.toNat * 256 ^ bs.length + beNat bs) / 256 ^ bs.length = b.toNat := by
      rw [Nat.mul_comm, Nat.mul_add_div (by positivity), Nat.div_eq_of_lt (beNat_lt bs), Nat.add_zero]
    rw [List.length_cons, beBytes_succ, beNat_cons, hhigh, beBytes_mul_pow_add, ih, BitVec.ofNat_toNat,
      BitVec.setWidth_eq]

/-- The bytes of word k of a LOADIN (30_encoding.md R92). -/
theorem beBytes_inputWord (bs : List Byte) (k : Nat) :
    beBytes 4 (inputWord bs k).toNat = (List.range 4).map fun j => bs.getD (4 * k + j) 0 := by
  have hlt : beNat ((List.range 4).map fun j => bs.getD (4 * k + j) 0) < 2 ^ 32 :=
    (beNat_lt _).trans_eq (by rw [List.length_map, List.length_range]; norm_num)
  rw [inputWord, BitVec.toNat_ofNat, Nat.mod_eq_of_lt hlt]
  exact beBytes_beNat _

/-- Word k of a LOADIN puts the list's bytes 4k to 4k+3 in DIN, 0x00 past the list's end. -/
theorem read_writeWord_inputWord (m : Memory) (bs : List Byte) (k a : Nat) :
    (m.writeWord k (inputWord bs k)).read a = if a / 4 = k then bs.getD a 0 else m.read a := by
  rw [Memory.writeWord, Memory.read_writeBytes, beBytes_length, beBytes_inputWord]
  by_cases ha : a / 4 = k
  · have hj : a - 4 * k < 4 := by omega
    rw [if_pos ha, if_pos (by omega)]
    simp [List.getD_eq_getElem?_getD, hj, show 4 * k + (a - 4 * k) = a by omega]
  · rw [if_neg ha, if_neg (by omega)]

/-- The writes of a LOADIN's first n words (30_encoding.md R92). -/
def inputWrites (bs : List Byte) (n : Nat) : List Turn :=
  (List.range n).map fun k => wr (.din (Fin.ofNat 16 k)) (inputWord bs k)

theorem loadIn_eq_inputWrites (bs : List Byte) : loadIn bs = inputWrites bs ((bs.length + 3) / 4) := rfl

@[simp] theorem inputWrites_length (bs : List Byte) (n : Nat) : (inputWrites bs n).length = n := by simp [inputWrites]

theorem inputWrites_succ (bs : List Byte) (n : Nat) :
    inputWrites bs (n + 1) = inputWrites bs n ++ [wr (.din (Fin.ofNat 16 n)) (inputWord bs n)] := by
  simp [inputWrites, List.range_succ]

/-- After a LOADIN's first n words the first 4n bytes of DIN are the list's, and no other byte has changed. -/
theorem run_inputWrites {s : State} (hidle : s.status.busy = false) (bs : List Byte) : ∀ {n : Nat} {turns : List Turn},
    n ≤ 16 → s.agenda = inputWrites bs n ++ turns →
    ∃ m, core.run n s = .next { s with din := m, agenda := turns, bus := if n = 0 then s.bus else .written } ∧
      ∀ a, m.read a = if a < 4 * n then bs.getD a 0 else s.din.read a := by
  intro n
  induction n with
  | zero => rintro turns - rfl; exact ⟨s.din, rfl, fun _ => rfl⟩
  | succ n ih =>
    intro turns hn hagenda
    rw [inputWrites_succ, List.append_assoc] at hagenda
    obtain ⟨m, hrun, hm⟩ := ih (by omega) hagenda
    refine ⟨m.writeWord n (inputWord bs n), ?_, fun a => ?_⟩
    · have hwrite := step_wr_of_idle (s := { s with din := m, bus := if n = 0 then s.bus else .written }) hidle
        (.din (Fin.ofNat 16 n)) (inputWord bs n)
      have hword : (Fin.ofNat 16 n).val = n := Nat.mod_eq_of_lt hn
      refine (run_add hrun).trans ((run_wr hwrite 0 turns).trans ?_)
      simp only [Reg.store, hword]
      rfl
    · rw [read_writeWord_inputWord, hm]
      by_cases ha : a / 4 = n
      · rw [if_pos ha, if_pos (by omega)]
      · have hiff : a < 4 * (n + 1) ↔ a < 4 * n := by omega
        simp only [ha, hiff, if_false]

/-- Settles O52: all of the LOADIN's words, one write after the other. -/
theorem loadInFillsDin : Obligations.LoadInFillsDin := by
  intro s bs rest hidle hlen hagenda
  obtain ⟨m, hrun, hm⟩ := run_inputWrites hidle bs (by omega) hagenda
  have hempty : (bs.length + 3) / 4 = 0 ↔ bs = [] := by rw [← List.length_eq_zero_iff]; omega
  refine ⟨m, ?_, hm⟩
  rw [loadIn_eq_inputWrites, inputWrites_length, hrun]
  simp only [hempty]

/-! ### EXEC (40_host_access.md R104, 60_exceptions.md R184) -/

/-- s with other turns ahead and another response on the bus: no command reads the two fields. -/
def State.withSchedule (agenda : List Turn) (bus : BusResponse) (s : State) : State :=
  { s with agenda := agenda, bus := bus }

/-- Two conditionals on one condition are alike when their branches are. -/
theorem SameOutcome.ite {R : State → State → Prop} {p : Prop} [Decidable p] {o₁ o₂ o₁' o₂' : Outcome}
    (h₁ : SameOutcome R o₁ o₁') (h₂ : SameOutcome R o₂ o₂') :
    SameOutcome R (if p then o₁ else o₂) (if p then o₁' else o₂') := by
  split
  · exact h₁
  · exact h₂

section
variable (agenda : List Turn) (bus : BusResponse)

@[simp] theorem State.withSchedule_toff (s : State) : (s.withSchedule agenda bus).toff = s.toff := rfl
@[simp] theorem State.withSchedule_digits (s : State) : (s.withSchedule agenda bus).digits = s.digits := rfl
@[simp] theorem State.withSchedule_din (s : State) : (s.withSchedule agenda bus).din = s.din := rfl

theorem execHotpTrunc_withSchedule (alg : Alg) (s : State) :
    SameOutcome (fun t t' => t' = t.withSchedule agenda bus) (execHotpTrunc alg s)
      (execHotpTrunc alg (s.withSchedule agenda bus)) := by
  unfold execHotpTrunc
  rw [State.withSchedule_digits, State.withSchedule_toff, State.withSchedule_din]
  cases macLen alg with
  | none => exact .next rfl
  | some len =>
    refine .ite (.next rfl) ?_
    cases selectOffset s.toff len s.din with
    | none => exact .next rfl
    | some off => exact .next rfl

/-- Each command chooses its branch by registers that the schedule leaves alone. -/
theorem exec_withSchedule (i : Instr) (s : State) :
    SameOutcome (fun t t' => t' = t.withSchedule agenda bus) (exec i s) (exec i (s.withSchedule agenda bus)) := by
  cases i with
  | fold alg => cases alg <;> exact .next rfl
  | wordEnc | hexEnc => exact .ite (.next rfl) (.next rfl)
  | ctrMsg => exact .next rfl
  | hotpTrunc alg => exact execHotpTrunc_withSchedule agenda bus alg s
  | totpCtr => exact .ite (.next rfl) (.ite (.next rfl) (.next rfl))

/-- A command's next state keeps whatever turns lie ahead and whatever the bus has answered. -/
theorem exec_eq_of_withSchedule {i : Instr} {s u : State} (h : exec i s = .next u) :
    exec i (s.withSchedule agenda bus) = .next (u.withSchedule agenda bus) := by
  have hsame := exec_withSchedule agenda bus i s
  rw [h] at hsame
  obtain ⟨_, hfault, -⟩ | ⟨_, _, hn, hn', rfl⟩ := hsame.cases
  · cases hfault
  · cases hn; exact hn'

end

/-- Polls of STATUS change nothing of OTPPD (40_host_access.md R101). -/
theorem run_polls {turns : List Turn} : ∀ {polls : Nat} {s : State},
    s.agenda = List.replicate polls (rd .status) ++ turns →
    ∃ bus, core.run polls s = .next (s.withSchedule turns bus) := by
  intro polls
  induction polls with
  | zero => rintro s rfl; exact ⟨s.bus, rfl⟩
  | succ polls ih =>
    intro s hagenda
    obtain ⟨bus, hrun⟩ := ih
      (s := s.withSchedule (List.replicate polls (rd .status) ++ turns) (.data (Reg.value .status s))) rfl
    exact ⟨bus, (run_poll hagenda polls).trans hrun⟩

/-- Every command completes, with success or with an error (60_exceptions.md R184, R185). -/
theorem exec_completes (i : Instr) (s : State) :
    ∃ u, exec i s = .next u ∧ u.status.busy = false ∧ u.status.done = true := by
  rcases exec_cases i s with ⟨k, -, hn⟩ | ⟨out, u, -, -, hn⟩
  · exact ⟨_, hn, rfl, rfl⟩
  · exact ⟨_, hn, rfl, rfl⟩

/-- The completion of a command's word is the command (60_exceptions.md R184). -/
theorem completeCurrent_encode {i : Instr} {s : State} (hwf : i.WellFormed) (hcur : s.cur = encode i) :
    completeCurrent s = exec i s := by
  simp only [completeCurrent, hcur, decode_encode hwf]

/-- Settles O57: issue, polls, completion and last poll, one after the other; the completion is the command's, which
does not read what the polls leave behind. -/
theorem execStatementCompletes : Obligations.ExecStatementCompletes := by
  intro s i polls rest hidle hwf hagenda
  obtain ⟨u, hu, hbusy, hdone⟩ := exec_completes i (issue (encode i) s)
  refine ⟨u, hu, hbusy, hdone, ?_⟩
  obtain ⟨bus, hpolls⟩ := run_polls (polls := polls) (turns := .block :: rd .status :: rest)
    (s := (issue (encode i) s).withSchedule (waitTurns polls ++ rest) .written)
    (by simp [State.withSchedule, waitTurns])
  have hblock : step ((issue (encode i) s).withSchedule (.block :: rd .status :: rest) bus) =
      .next (u.withSchedule (rd .status :: rest) bus) := by
    rw [step_block_of_busy rfl rfl, completeCurrent_encode hwf rfl]
    exact (exec_eq_of_withSchedule (rd .status :: rest) bus hu :)
  calc core.run (polls + 3) s
      = core.run (polls + 2) ((issue (encode i) s).withSchedule (waitTurns polls ++ rest) .written) :=
        (congrArg (core.run (polls + 3)) (withAgenda_of_eq hagenda)).symm.trans
          (run_wr (step_wr_cmd_of_idle hidle (encode i)) (polls + 2) (waitTurns polls ++ rest))
    _ = core.run 2 ((issue (encode i) s).withSchedule (.block :: rd .status :: rest) bus) := run_add hpolls
    _ = core.run 1 (u.withSchedule (rd .status :: rest) bus) := run_succ 1 hblock
    _ = .next { u with agenda := rest, bus := .data (Reg.value .status u) } := run_poll rfl 0

end Sys2Proof.Machine
end

section
/-! Host accesses to single registers (40_host_access.md R101 to R109), and a command word placed from outside: each
statement is the step of one turn, with what that turn does. -/

namespace Sys2Proof.Machine

open Sys2Proof.Claims

/-! ### A command word placed from outside (log 5) -/

/-- Settles O10: the Block's turn comes first, and the command in flight is the word's. -/
theorem placedWordRunsNext : Obligations.PlacedWordRunsNext := by
  intro s i hwf
  have hword : BitVec.ofNat 32 ((encode i).toNat % 2 ^ 32) = encode i := by
    rw [Nat.mod_eq_of_lt (encode i).isLt, BitVec.ofNat_toNat, BitVec.setWidth_eq]
  rw [State.withFetchWord, hword, step_block_of_busy (rest := s.agenda) rfl rfl, completeCurrent_encode hwf rfl]
  rfl

/-! ### What a write does at a register (40_host_access.md R100) -/

/-- A statement's write leaves what `writeReg` is shown to leave. -/
theorem afterWrite_of_writeReg {s t : State} {r : Reg} {w : Word} (h : writeReg r w s = t) : AfterWrite s r w t :=
  h ▸ step_wr s r w

/-- A write to a read-only register is ignored, busy or not (R102). -/
theorem writeReg_of_isReadOnly {r : Reg} (h : r.isReadOnly = true) (w : Word) (s : State) : writeReg r w s = s := by
  have hstatus : r ≠ .status := by rintro rfl; cases h
  rw [writeReg, if_neg hstatus, if_pos h]

/-- A write to CMD or to a read-write register while BUSY = 1 is dropped (R103). -/
theorem writeReg_of_busy {r : Reg} {s : State} (hbusy : s.status.busy = true) (hstatus : r ≠ .status)
    (hro : r.isReadOnly = false) (w : Word) : writeReg r w s = dropWrite s := by
  rw [writeReg, if_neg hstatus, if_neg (by simp [hro]), if_pos hbusy]

/-- A write to STATUS with bit 8 set clears OVR, and any other keeps it (R105). -/
theorem Status.written_eq (st : Status) (w : Word) :
    st.written w = { st with ovr := if w.getLsbD 8 then false else st.ovr } := by
  cases h : w.getLsbD 8 with
  | false => simp only [Status.written, h, Bool.not_false, Bool.and_true, Bool.false_eq_true, if_false]
  | true => simp only [Status.written, h, Bool.not_true, Bool.and_false, if_true]

/-- Settles O41: none of these registers is STATUS or read-only, so the write is dropped. -/
theorem writeWhileBusyIsDropped : Obligations.WriteWhileBusyIsDropped := by
  intro s r w hbusy hr
  have hlisted : ∀ r ∈ [Reg.cmd, .hotpCfg, .totpStep, .totpTimeLo, .totpTimeHi, .totpUtcoff, .counterLo, .counterHi],
      r ≠ .status ∧ r.isReadOnly = false := by decide
  obtain ⟨hstatus, hro⟩ : r ≠ .status ∧ r.isReadOnly = false := by
    rcases hr with hmem | ⟨k, rfl⟩
    · exact hlisted r hmem
    · exact ⟨by simp, rfl⟩
  exact afterWrite_of_writeReg (writeReg_of_busy hbusy hstatus hro w)

/-- Settles O42: the write issues the word, which an issue does not look at. -/
theorem issueLatchesCommand : Obligations.IssueLatchesCommand := fun _ w hidle => step_wr_cmd_of_idle hidle w

/-- Settles O43: STATUS is the first case of a write, before BUSY is looked at. -/
theorem statusWriteClearsOverrun : Obligations.StatusWriteClearsOverrun := by
  intro s w
  rw [← Status.written_eq]
  exact afterWrite_of_writeReg (if_pos rfl)

/-- Settles O44: the write is ignored; CMD is no result register, and its value is 0. -/
theorem readOnlyWritesAreIgnored : Obligations.ReadOnlyWritesAreIgnored := by
  intro s w
  have hignored {r : Reg} (h : r.isReadOnly = true) : AfterWrite s r w s :=
    afterWrite_of_writeReg (writeReg_of_isReadOnly h w s)
  exact ⟨hignored rfl, hignored rfl, hignored rfl, fun _ => hignored rfl, fun _ => hignored rfl,
    step_rd_of_not_result s rfl⟩

/-! ### The words of a buffer (20_memory.md R63, 40_host_access.md R109) -/

/-- Byte j of a word, the first in bits 31:24 (00_scope.md R11). -/
theorem beBytes_four_getD (w : Word) {j : Nat} (hj : j < 4) :
    (beBytes 4 w.toNat).getD j 0 = w.extractLsb' (24 - 8 * j) 8 := by
  apply BitVec.eq_of_toNat_eq
  rw [beBytes_getD hj, BitVec.toNat_ofNat, BitVec.extractLsb'_toNat, Nat.shiftRight_eq_div_pow,
    show (256 : Nat) = 2 ^ 8 by norm_num, ← pow_mul, show 8 * (4 - 1 - j) = 24 - 8 * j by omega]

/-- Read after a write of word k: its four bytes, and every other byte as before. -/
theorem Memory.read_writeWord (m : Memory) (k : Nat) (w : Word) (a : Nat) :
    (m.writeWord k w).read a = if a / 4 = k then w.extractLsb' (24 - 8 * (a % 4)) 8 else m.read a := by
  rw [Memory.writeWord, Memory.read_writeBytes, beBytes_length]
  by_cases ha : a / 4 = k
  · rw [if_pos ha, if_pos (by omega), show a - 4 * k = a % 4 by omega, beBytes_four_getD w (by omega)]
  · rw [if_neg ha, if_neg (by omega)]

/-- A word of a buffer is its four bytes, the lowest address in bits 31:24. -/
theorem Memory.word_eq_bufferWord (m : Memory) (k : Nat) : m.word k = bufferWord m k := by
  apply BitVec.eq_of_toNat_eq
  simp only [Memory.word, bufferWord, BitVec.toNat_ofNat, Memory.memRead_four, toNat_append_eq]
  have h0 := (m.read (4 * k)).isLt
  have h1 := (m.read (4 * k + 1)).isLt
  have h2 := (m.read (4 * k + 2)).isLt
  have h3 := (m.read (4 * k + 3)).isLt
  omega

/-- The writable bits of TOTP_UTCOFF are the byte that it holds (R108). -/
theorem setWidth_and_byte_mask (w : Word) : (w &&& 0x000000FF).setWidth 8 = w.setWidth 8 := by
  have hmask : (0x000000FF : Word).setWidth 8 = BitVec.allOnes 8 := by decide
  rw [BitVec.setWidth_and, hmask, BitVec.and_allOnes]

/-- Settles O40: each write is stored, as `Reg.store` says for its register. -/
theorem writeStoresWritableBits : Obligations.WriteStoresWritableBits := by
  intro s w hidle
  refine ⟨step_wr_of_idle hidle .hotpCfg w, ?_, step_wr_of_idle hidle .totpStep w,
    step_wr_of_idle hidle .totpTimeLo w, step_wr_of_idle hidle .totpTimeHi w,
    step_wr_of_idle hidle .counterLo w, step_wr_of_idle hidle .counterHi w, fun k => ?_⟩
  · rw [setWidth_and_byte_mask]
    exact step_wr_of_idle hidle .totpUtcoff w
  · exact ⟨s.din.writeWord k.val w, step_wr_of_idle hidle (.din k) w, Memory.read_writeWord s.din k.val w⟩

/-! ### What a read returns (40_host_access.md R101) -/

/-- No host access reads the turns that lie ahead or stores to them. -/
theorem hostBlind_withAgenda (agenda : List Turn) : HostBlind fun s => { s with agenda := agenda } where
  status _ := rfl
  draws _ := rfl
  value r s := Reg.value_withAgenda r s agenda
  setStatus _ _ := rfl
  setDraws _ _ := rfl
  setBus _ _ := rfl
  store r _ _ := by cases r <;> rfl

/-- A statement's read is accepted, returns what `readReg` says and leaves what `afterRead` says. -/
theorem step_rd (s : State) (r : Reg) (rest : List Turn) : step { s with agenda := rd r :: rest } =
    .next { afterRead r s with agenda := rest, bus := .data (readReg r s) } := by
  have hstep : step { s with agenda := rd r :: rest } = hostTurn (.read r.addr 32) { s with agenda := rest } :=
    step_cons (s := { s with agenda := rd r :: rest }) rfl
  have hblind := hostBlind_withAgenda rest
  rw [hstep, hostTurn_read, hblind.readReg_comm r s, hblind.afterRead_comm r s]

/-- While BUSY = 0 every register reads its value, and the read changes nothing. -/
theorem step_rd_of_idle {s : State} (hidle : s.status.busy = false) (r : Reg) : AfterRead s r (r.value s) := by
  intro rest
  have hvalue : readReg r s = r.value s := by simp [readReg, hidle]
  have hkept : afterRead r s = s := by simp [afterRead, hidle]
  rw [step_rd, hvalue, hkept]

/-- While BUSY = 1 a result register reads the next free word, which is then drawn (R106). -/
theorem step_rd_of_busy_result {s : State} (hbusy : s.status.busy = true) {r : Reg} (hresult : r.isResult = true)
    (rest : List Turn) : step { s with agenda := rd r :: rest } =
      .next { s with agenda := rest, bus := .data (Config.draw32 s.draws), draws := s.draws + 1 } := by
  have hfree : readReg r s = Config.draw32 s.draws := by simp [readReg, hbusy, hresult]
  have hdrawn : afterRead r s = { s with draws := s.draws + 1 } := by simp [afterRead, hbusy, hresult]
  rw [step_rd, hfree, hdrawn]

/-- The LO word of a pair as a number (10_state.md R42). -/
theorem lowHalf_eq_ofNat (x : DWord) : lowHalf x = BitVec.ofNat 32 (x.toNat % 2 ^ 32) := by
  apply BitVec.eq_of_toNat_eq
  rw [lowHalf, BitVec.extractLsb'_toNat, Nat.shiftRight_zero, BitVec.toNat_ofNat, Nat.mod_mod]

/-- The HI word of a pair as a number (10_state.md R42). -/
theorem highHalf_eq_ofNat (x : DWord) : highHalf x = BitVec.ofNat 32 (x.toNat / 2 ^ 32) := by
  rw [highHalf, BitVec.extractLsb', Nat.shiftRight_eq_div_pow]

/-- Settles O47: none of the input registers is a result register, so each reads its value at any time. -/
theorem inputRegistersReadTrueValues : Obligations.InputRegistersReadTrueValues := by
  intro s
  rw [← lowHalf_eq_ofNat, ← highHalf_eq_ofNat, BitVec.ofNat_toNat]
  exact ⟨step_rd_of_not_result s rfl, step_rd_of_not_result s rfl, step_rd_of_not_result s rfl,
    step_rd_of_not_result s rfl, step_rd_of_not_result s rfl⟩

/-- Settles O48: while BUSY = 0 each result register reads its value. -/
theorem resultRegistersReadTrueValues : Obligations.ResultRegistersReadTrueValues := by
  intro s hidle
  simp only [← lowHalf_eq_ofNat, ← highHalf_eq_ofNat, BitVec.ofNat_toNat]
  have hread := step_rd_of_idle hidle
  exact ⟨hread .counterLo, hread .counterHi, hread .snum, hread .doutLen, hread .parity, fun k => hread (.widx k)⟩

/-- Settles O49: DIN is no result register; DOUT is one, and reads its value while BUSY = 0. -/
theorem bufferWordsArePacked : Obligations.BufferWordsArePacked := by
  intro s
  simp only [← Memory.word_eq_bufferWord]
  exact ⟨fun _ => step_rd_of_not_result s rfl, fun hidle k => step_rd_of_idle hidle (.dout k)⟩

/-- Settles O50: each of these registers is a result register. -/
theorem busyResultReadIsFree : Obligations.BusyResultReadIsFree := by
  intro s r rest hbusy hr
  have hlisted : ∀ r ∈ [Reg.counterLo, .counterHi, .snum, .doutLen, .parity], r.isResult = true := by decide
  have hresult : r.isResult = true := by
    rcases hr with hmem | ⟨k, rfl⟩ | ⟨k, rfl⟩
    · exact hlisted r hmem
    · rfl
    · rfl
  exact step_rd_of_busy_result hbusy hresult rest

end Sys2Proof.Machine
end

section
/-! The completion of each command, one equation per case of its rule, and a command run again on the state that it
left (95_test_vectors.md T-S8). -/

namespace Sys2Proof.Machine

/-! ### The cases of a command -/

section
variable {s : State}

/-- FOLD of a digest that it takes (41_fold.md R120). -/
theorem exec_fold_of_ok {alg : Alg} {x : DWord} (hfold : foldDigest alg s.din = .ok x) :
    exec (.fold alg) s = .next (complete [] (s.withFolded x)) := by
  show execFold alg s = _
  rw [execFold, hfold]

/-- FOLD of an algorithm that it turns away (41_fold.md R120). -/
theorem exec_fold_of_error {alg : Alg} {k : ErrorKind} (hfold : foldDigest alg s.din = .error k) :
    exec (.fold alg) s = raise k s := by
  show execFold alg s = _
  rw [execFold, hfold]

/-- WORD_ENC of a FoldedValue (42_encoders.md R130). -/
theorem exec_wordEnc_of_value (hv : s.status.vvalid = true) :
    exec .wordEnc s = .next (complete (wordText (wordIndices s.v (parity2 s.v)))
      (s.withWords (parity2 s.v) (wordIndices s.v (parity2 s.v)))) :=
  if_neg (ne_false_of_eq_true hv)

/-- HEX_ENC of a FoldedValue (42_encoders.md R136). -/
theorem exec_hexEnc_of_value (hv : s.status.vvalid = true) : exec .hexEnc s = .next (complete (hexText s.v) s) :=
  if_neg (ne_false_of_eq_true hv)

/-- HOTP_TRUNC's first check (60_exceptions.md R182). -/
theorem exec_hotpTrunc_of_macLen_none {alg : Alg} (hmac : macLen alg = none) :
    exec (.hotpTrunc alg) s = raise .unsupportedAlgorithm s := by
  show execHotpTrunc alg s = _
  rw [execHotpTrunc, hmac]

/-- HOTP_TRUNC's second check (60_exceptions.md R182). -/
theorem exec_hotpTrunc_of_digits {alg : Alg} {len : Nat} (hmac : macLen alg = some len)
    (hdigits : s.digits < 6 ∨ 10 < s.digits) : exec (.hotpTrunc alg) s = raise .invalidParameter s := by
  show execHotpTrunc alg s = _
  rw [execHotpTrunc, hmac]
  exact if_pos hdigits

/-- HOTP_TRUNC's last check (60_exceptions.md R182). -/
theorem exec_hotpTrunc_of_offset_none {alg : Alg} {len : Nat} (hmac : macLen alg = some len)
    (hdigits : ¬(s.digits < 6 ∨ 10 < s.digits)) (hoff : selectOffset s.toff len s.din = none) :
    exec (.hotpTrunc alg) s = raise .invalidOffset s := by
  show execHotpTrunc alg s = _
  rw [execHotpTrunc, hmac]
  dsimp only
  rw [if_neg hdigits, hoff]

/-- HOTP_TRUNC of a MAC whose window is chosen (43_hotp.md R151). -/
theorem exec_hotpTrunc_of_offset {alg : Alg} {len off : Nat} (hmac : macLen alg = some len)
    (hdigits : ¬(s.digits < 6 ∨ 10 < s.digits)) (hoff : selectOffset s.toff len s.din = some off) :
    exec (.hotpTrunc alg) s = .next (complete (hotpText (truncated s.din off) s.digits s.chk)
      (s.withSnum (BitVec.ofNat 31 (truncated s.din off)))) := by
  show execHotpTrunc alg s = _
  rw [execHotpTrunc, hmac]
  dsimp only
  rw [if_neg hdigits, hoff]

/-- TOTP_CTR's first check (60_exceptions.md R182). -/
theorem exec_totpCtr_of_step_zero (hstep : s.stepSeconds = 0) : exec .totpCtr s = raise .invalidParameter s :=
  if_pos hstep

/-- TOTP_CTR's last check (60_exceptions.md R182). -/
theorem exec_totpCtr_of_time_neg (hstep : s.stepSeconds ≠ 0) (htime : s.effectiveTime < 0) :
    exec .totpCtr s = raise .invalidTimeInput s :=
  (if_neg hstep).trans (if_pos htime)

/-- TOTP_CTR of a time that it takes (44_totp.md R170). -/
theorem exec_totpCtr_of_time (hstep : s.stepSeconds ≠ 0) (htime : ¬s.effectiveTime < 0) :
    exec .totpCtr s =
      .next (complete (dwordBytes (BitVec.ofInt 64 (timeCounter s.effectiveTime s.stepSeconds)))
        (s.withCounter (BitVec.ofInt 64 (timeCounter s.effectiveTime s.stepSeconds)))) :=
  (if_neg hstep).trans (if_neg htime)

end

/-! ### A command run again on the state that it left -/

/-- A success completion with the same output changes nothing the second time. -/
theorem complete_complete {out : List Byte} (hout : out.length ≤ 32) (s : State) :
    complete out (complete out s) = complete out s :=
  congrArg (fun m => { complete out s with dout := m }) (Memory.withOutput_withOutput hout)

/-- An error completion with the same error changes nothing the second time. -/
theorem errorComplete_errorComplete (k : ErrorKind) (s : State) :
    errorComplete k (errorComplete k s) = errorComplete k s :=
  congrArg (fun m => { errorComplete k s with dout := m }) (Memory.withOutput_withOutput (out := []) (Nat.zero_le 32))

/-- i answers a next state, and the same one when it runs again on it. -/
def Repeats (i : Instr) (s : State) : Prop := ∃ t, exec i s = .next t ∧ exec i t = .next t

/-- An error that the error completion leaves standing is raised again. -/
theorem Repeats.of_raise {i : Instr} {s : State} {k : ErrorKind} (hfirst : exec i s = raise k s)
    (hagain : exec i (errorComplete k s) = raise k (errorComplete k s)) : Repeats i s :=
  ⟨errorComplete k s, hfirst, hagain.trans (congrArg Host.Outcome.next (errorComplete_errorComplete k s))⟩

/-- A success that puts out the same bytes again, and whose register writes change nothing the second time. -/
theorem Repeats.of_complete {i : Instr} {s u u' : State} {out : List Byte} (hout : out.length ≤ 32)
    (hfirst : exec i s = .next (complete out u)) (hagain : exec i (complete out u) = .next (complete out u'))
    (hwrites : complete out u' = complete out (complete out u)) : Repeats i s :=
  ⟨complete out u, hfirst, hagain.trans (congrArg _ (hwrites.trans (complete_complete hout u)))⟩

theorem fold_repeats (alg : Alg) (s : State) : Repeats (.fold alg) s := by
  cases hfold : foldDigest alg s.din with
  | error k => exact .of_raise (exec_fold_of_error hfold) (exec_fold_of_error hfold)
  | ok x => exact .of_complete (out := []) (Nat.zero_le 32) (exec_fold_of_ok hfold) (exec_fold_of_ok hfold) rfl

theorem wordEnc_repeats (s : State) : Repeats .wordEnc s := by
  cases hv : s.status.vvalid with
  | false => exact .of_raise (exec_wordEnc_of_no_value hv) (exec_wordEnc_of_no_value hv)
  | true =>
    -- For any output: unifying the two texts themselves would unfold the encoder.
    have hagain (out p idx) := exec_wordEnc_of_value (s := complete out (s.withWords p idx)) hv
    simp only [complete_v, State.withWords_v] at hagain
    have hwrites (out p idx) : complete out ((complete out (s.withWords p idx)).withWords p idx) =
        complete out (complete out (s.withWords p idx)) := rfl
    exact .of_complete ((wordText_length _).2.trans (by norm_num)) (exec_wordEnc_of_value hv) (hagain _ _ _)
      (hwrites _ _ _)

theorem hexEnc_repeats (s : State) : Repeats .hexEnc s := by
  cases hv : s.status.vvalid with
  | false => exact .of_raise (exec_hexEnc_of_no_value hv) (exec_hexEnc_of_no_value hv)
  | true => exact .of_complete (by simp) (exec_hexEnc_of_value hv) (exec_hexEnc_of_value hv) rfl

theorem hotpTrunc_repeats (alg : Alg) (s : State) : Repeats (.hotpTrunc alg) s := by
  cases hmac : macLen alg with
  | none => exact .of_raise (exec_hotpTrunc_of_macLen_none hmac) (exec_hotpTrunc_of_macLen_none hmac)
  | some len =>
    by_cases hdigits : s.digits < 6 ∨ 10 < s.digits
    · exact .of_raise (exec_hotpTrunc_of_digits hmac hdigits) (exec_hotpTrunc_of_digits hmac hdigits)
    · cases hoff : selectOffset s.toff len s.din with
      | none =>
        exact .of_raise (exec_hotpTrunc_of_offset_none hmac hdigits hoff)
          (exec_hotpTrunc_of_offset_none hmac hdigits hoff)
      | some off =>
        refine .of_complete ?_ (exec_hotpTrunc_of_offset hmac hdigits hoff)
          (exec_hotpTrunc_of_offset hmac hdigits hoff) rfl
        rw [hotpText_length]
        split <;> omega

theorem totpCtr_repeats (s : State) : Repeats .totpCtr s := by
  by_cases hstep : s.stepSeconds = 0
  · exact .of_raise (exec_totpCtr_of_step_zero hstep) (exec_totpCtr_of_step_zero hstep)
  · by_cases htime : s.effectiveTime < 0
    · exact .of_raise (exec_totpCtr_of_time_neg hstep htime) (exec_totpCtr_of_time_neg hstep htime)
    · exact .of_complete (by simp) (exec_totpCtr_of_time hstep htime) (exec_totpCtr_of_time hstep htime) rfl

/-- Settles O17: a command runs into the same case again, since no completion writes what the case is chosen by or the
results are computed from. -/
theorem commandsAreRepeatable : Obligations.CommandsAreRepeatable := by
  intro i s t ht
  have hrepeats : Repeats i s := by
    cases i with
    | fold alg => exact fold_repeats alg s
    | wordEnc => exact wordEnc_repeats s
    | hexEnc => exact hexEnc_repeats s
    | ctrMsg => exact .of_complete (by simp) rfl rfl rfl
    | hotpTrunc alg => exact hotpTrunc_repeats alg s
    | totpCtr => exact totpCtr_repeats s
  obtain ⟨_, hfirst, hagain⟩ := hrepeats
  cases hfirst.symm.trans ht
  exact hagain

end Sys2Proof.Machine
end

section
/-! FOLD: the fold of a digest (41_fold.md R120, R121), and what of DIN it reads (20_memory.md R67). -/

namespace Sys2Proof.Machine

open Sys2Proof.Claims

/-! ### The fold in words -/

/-- The four bytes of a digest from byte a up, in 32-bit big-endian form (R121). -/
def digestWord (d : Nat → Byte) (a : Nat) : Word := d a ++ d (a + 1) ++ d (a + 2) ++ d (a + 3)

theorem bufferWord_eq_digestWord (m : Memory) (n : Nat) : bufferWord m n = digestWord m.read (4 * n) := rfl

theorem digestWord_xor (d e : Nat → Byte) (a : Nat) :
    digestWord (fun j => d j ^^^ e j) a = digestWord d a ^^^ digestWord e a := by
  unfold digestWord
  rw [BitVec.xor_append (w := 24), BitVec.xor_append (w := 16), BitVec.xor_append (w := 8)]

/-- Eight bytes are two big-endian words. -/
theorem ofNat_beNat_eight (d : Nat → Byte) :
    BitVec.ofNat 64 (beNat ((List.range 8).map d)) = digestWord d 0 ++ digestWord d 4 := by
  apply BitVec.eq_of_toNat_eq
  have hlt := beNat_lt ((List.range 8).map d)
  have hpow : (256 : Nat) ^ ((List.range 8).map d).length = 2 ^ 64 := by simp
  rw [BitVec.toNat_ofNat, Nat.mod_eq_of_lt (hpow ▸ hlt)]
  simp only [digestWord, toNat_append_eq]
  simp only [List.range_succ, List.range_zero, beNat, List.map_append, List.map_cons, List.map_nil, List.foldl_append,
    List.foldl_cons, List.foldl_nil, Nat.zero_add, Nat.reduceAdd]
  omega

theorem fold128_eq_words (d : Nat → Byte) :
    fold128 d = (digestWord d 0 ^^^ digestWord d 8) ++ (digestWord d 4 ^^^ digestWord d 12) := by
  rw [fold128, ofNat_beNat_eight, digestWord_xor d fun j => d (j + 8), digestWord_xor d fun j => d (j + 8)]
  rfl

/-- `fold160` puts the digest's last word into its first (R121; 90_conflicts.md C1). -/
theorem fold160_eq_words (d : Nat → Byte) : fold160 d =
    (digestWord d 0 ^^^ digestWord d 8 ^^^ digestWord d 16) ++ (digestWord d 4 ^^^ digestWord d 12) := by
  have hfirst : digestWord (foldTail d) 0 = digestWord d 0 ^^^ digestWord d 16 :=
    digestWord_xor d (fun j => d (16 + j)) 0
  rw [fold160, fold128_eq_words, hfirst, BitVec.xor_assoc, BitVec.xor_comm (digestWord d 16), ← BitVec.xor_assoc]
  rfl

/-- What FOLD md4, md5 and sha1 fold, in the words of DIN (R121). -/
theorem foldDigest_eq_words {alg : Alg} (halg : alg = .md4 ∨ alg = .md5 ∨ alg = .sha1) (m : Memory) :
    foldDigest alg m = .ok ((bufferWord m 0 ^^^ bufferWord m 2 ^^^ (if alg = .sha1 then bufferWord m 4 else 0)) ++
      (bufferWord m 1 ^^^ bufferWord m 3)) := by
  simp only [bufferWord_eq_digestWord, Nat.reduceMul]
  rcases halg with rfl | rfl | rfl
  · simp [foldDigest, fold128_eq_words]
  · simp [foldDigest, fold128_eq_words]
  · simp [foldDigest, fold160_eq_words]

/-- What a success completion puts out (60_exceptions.md R184). -/
theorem complete_output {out : List Byte} (hout : out.length ≤ 32) (s : State) : Output s (complete out s) out := by
  have hread (a : Nat) := Memory.read_withOutput (m := s.dout) hout a
  exact ⟨toNat_doutLen_ofNat hout, fun a ha => (hread a).trans (if_pos ha),
    fun a ha => (hread a).trans (if_neg (by omega))⟩

/-- Settles O18: the value is the fold's, in words; the rest is what a completion does and what FOLD leaves alone. -/
theorem foldCompletes : Obligations.FoldCompletes := by
  intro alg s halg
  have hnext := exec_fold_of_ok (foldDigest_eq_words halg s.din)
  have hframe := exec_framed hnext
  exact ⟨_, hnext, rfl, rfl, ⟨rfl, rfl, rfl, rfl⟩, complete_output (out := []) (Nat.zero_le 32) _, hframe.inputs,
    hframe.words nofun, hframe.counter nofun, hframe.snum nofun⟩

/-- Settles O19: each of these algorithms is turned away, and an error completion does what R185 says. -/
theorem foldRejectsAlgorithms : Obligations.FoldRejectsAlgorithms := by
  intro s
  exact ⟨⟨_, exec_fold_of_error rfl, errorComplete_errorCompleted .unsupportedDigestWidth s⟩,
    ⟨_, exec_fold_of_error rfl, errorComplete_errorCompleted .unsupportedDigestWidth s⟩,
    fun _ _ => ⟨_, exec_fold_of_error rfl, errorComplete_errorCompleted .unsupportedAlgorithm s⟩⟩

/-- The eight bytes of a 64-bit value, big-endian (00_scope.md R11). -/
theorem map_bigEndianByte (x : DWord) : (List.range 8).map (bigEndianByte x) = beBytes 8 x.toNat := by
  refine List.map_congr_left fun j hj => ?_
  have hshift : 56 - 8 * j = 8 * (8 - 1 - j) := by
    have := List.mem_range.mp hj
    omega
  rw [bigEndianByte, BitVec.extractLsb', Nat.shiftRight_eq_div_pow, hshift, pow_mul]
  rfl

/-- A digest whose second half is 0x00 folds to its first half. -/
theorem fold128_of_bigEndianByte {d : Nat → Byte} {x : DWord} (hlow : ∀ j, j < 8 → d j = bigEndianByte x j)
    (hhigh : ∀ j, 8 ≤ j → j < 16 → d j = 0) : fold128 d = x := by
  have hbytes : ((List.range 8).map fun j => d j ^^^ d (j + 8)) = (List.range 8).map (bigEndianByte x) := by
    refine List.map_congr_left fun j hj => ?_
    have := List.mem_range.mp hj
    rw [hlow j this, hhigh (j + 8) (by omega) (by omega)]
    exact BitVec.xor_zero
  rw [fold128, hbytes, map_bigEndianByte, beNat_beBytes,
    show 256 ^ 8 = 2 ^ 64 by norm_num, Nat.mod_eq_of_lt x.isLt, BitVec.ofNat_toNat,
    BitVec.setWidth_eq]

/-- Settles O20: FOLD md5 is `fold128` of DIN's first 16 bytes. -/
theorem foldLoadsChosenValue : Obligations.FoldLoadsChosenValue := by
  intro s x hlow hhigh
  exact ⟨_, exec_fold_of_ok rfl, fold128_of_bigEndianByte hlow hhigh⟩

/-! ### FOLD reads the digest only -/

theorem fold128_congr {d e : Nat → Byte} (h : ∀ j, j < 16 → d j = e j) : fold128 d = fold128 e := by
  refine congrArg (fun bs => BitVec.ofNat 64 (beNat bs)) (List.map_congr_left fun j hj => ?_)
  have := List.mem_range.mp hj
  rw [h j (by omega), h (j + 8) (by omega)]

theorem fold160_congr {d e : Nat → Byte} (h : ∀ j, j < 20 → d j = e j) : fold160 d = fold160 e := by
  refine fold128_congr fun j hj => ?_
  by_cases htail : j < 4
  · simp only [foldTail, htail, ↓reduceIte, h j (by omega), h (16 + j) (by omega)]
  · simp only [foldTail, htail, ↓reduceIte, h j (by omega)]

theorem foldDigest_congr {alg : Alg} {m m' : Memory}
    (h : ∀ a, a < (if alg = .sha1 then 20 else 16) → m.read a = m'.read a) : foldDigest alg m = foldDigest alg m' := by
  cases alg with
  | md4 | md5 => exact congrArg Except.ok (fold128_congr h)
  | sha1 => exact congrArg Except.ok (fold160_congr h)
  | sha256 | sha512 | reserved c => rfl

/-- DOUT after a completion does not depend on what it held before (60_exceptions.md R184, R185). -/
theorem Memory.read_withOutput_congr {m m' : Memory} {out : List Byte} {a : Nat} (hout : out.length ≤ 32)
    (ha : a < 32) : (m.withOutput out).read a = (m'.withOutput out).read a := by
  rw [Memory.read_withOutput hout, Memory.read_withOutput hout, if_pos ha, if_pos ha]

/-- Settles O21: the two states have the same fold or the same error, and both completions follow from it. -/
theorem foldReadsOnlyDigest : Obligations.FoldReadsOnlyDigest := by
  intro alg s s' t t' hdigest ht ht'
  have hsame := foldDigest_congr hdigest
  have hdout (a : Nat) (ha : a < 32) : (s.dout.withOutput []).read a = (s'.dout.withOutput []).read a :=
    Memory.read_withOutput_congr (out := []) (Nat.zero_le 32) ha
  cases hfold : foldDigest alg s.din with
  | ok x =>
    cases (exec_fold_of_ok hfold).symm.trans ht
    cases (exec_fold_of_ok (hsame.symm.trans hfold)).symm.trans ht'
    exact ⟨fun _ => rfl, rfl, rfl, hdout⟩
  | error k =>
    have hrejected : ¬(alg = .md4 ∨ alg = .md5 ∨ alg = .sha1) := fun halg => by
      cases (foldDigest_eq_words halg s.din).symm.trans hfold
    cases (exec_fold_of_error hfold).symm.trans ht
    cases (exec_fold_of_error (hsame.symm.trans hfold)).symm.trans ht'
    exact ⟨fun halg => absurd halg hrejected, rfl, rfl, hdout⟩

end Sys2Proof.Machine
end

section
/-! DICT: the letters of its words, and that different indices have different words as strings (42_encoders.md R133;
log 8). -/

namespace Sys2Proof

/-- The letters of a dictionary word, in order (42_encoders.md R133). -/
def DictWord.letters : DictWord → List Letter
  | .one a => [a]
  | .two a b => [a, b]
  | .three a b c => [a, b, c]
  | .four a b c d => [a, b, c, d]

/-- The word with these letters, for as many letters as a word has. -/
def DictWord.ofLetters : List Letter → Option DictWord
  | [a] => some (.one a)
  | [a, b] => some (.two a b)
  | [a, b, c] => some (.three a b c)
  | [a, b, c, d] => some (.four a b c d)
  | _ => none

theorem DictWord.ofLetters_letters (w : DictWord) : DictWord.ofLetters w.letters = some w := by
  cases w <;> rfl

theorem DictWord.letters_injective : Function.Injective DictWord.letters := by
  intro w w' h
  have hsome : some w = some w' := by rw [← ofLetters_letters w, h, ofLetters_letters w']
  exact Option.some.inj hsome

end Sys2Proof

namespace Sys2Proof.Machine

open Sys2Proof.Claims

theorem wordChars_eq_map_letters (w : DictWord) : wordChars w = w.letters.map letterChar := by
  cases w <;> rfl

theorem letterChar_toNat (l : Letter) : (letterChar l).toNat = 0x41 + l.val := by
  have := l.isLt
  rw [letterChar, BitVec.toNat_ofNat]
  omega

theorem letterChar_injective : Function.Injective letterChar := by
  intro l l' h
  have htoNat := congrArg BitVec.toNat h
  rw [letterChar_toNat, letterChar_toNat] at htoNat
  exact Fin.ext (Nat.add_left_cancel htoNat)

/-- Two dictionary words with the same characters are the same word. -/
theorem wordChars_injective : Function.Injective wordChars := by
  intro w w' h
  rw [wordChars_eq_map_letters, wordChars_eq_map_letters] at h
  exact DictWord.letters_injective (letterChar_injective.list_map h)

/-- Every character of a dictionary word is an uppercase letter (R133 (a)). -/
theorem mem_wordChars {w : DictWord} {c : Byte} (h : c ∈ wordChars w) : 0x41 ≤ c.toNat ∧ c.toNat ≤ 0x5A := by
  rw [wordChars_eq_map_letters] at h
  obtain ⟨l, -, rfl⟩ := List.mem_map.mp h
  have := l.isLt
  rw [letterChar_toNat]
  omega

/-- Two indices with the same word as characters are the same index (R133 (b)). -/
theorem dict_wordChars_injective {i j : BitVec 11} (h : wordChars (Config.dict i) = wordChars (Config.dict j)) :
    i = j :=
  Config.dict_injective i j (wordChars_injective h)

/-- Settles O26: the bounds are those of a word's letters, and the characters determine the word, the word its index. -/
theorem dictionaryMeetsConstraint : Obligations.DictionaryMeetsConstraint := by
  refine ⟨fun i => ?_, fun _ _ => dict_wordChars_injective⟩
  obtain ⟨hmin, hmax⟩ := wordChars_length (Config.dict i)
  exact ⟨hmin, hmax, fun _ => mem_wordChars⟩

end Sys2Proof.Machine
end

section
/-! WORD_ENC: the parity, the indices and the text of a FoldedValue, and how the value is read back from them
(42_encoders.md R130 to R134, R137). -/

namespace Sys2Proof.Machine

open Sys2Proof.Claims

/-! ### The parity, the stream and the indices of WORD_ENC -/

theorem bitPair_eq (v : DWord) (i : Nat) : bitPair v i = v.toNat / 4 ^ i % 4 := by
  rw [bitPair, BitVec.extractLsb'_toNat, Nat.shiftRight_eq_div_pow, pow_mul, show 2 ^ 2 = 4 by norm_num]

/-- `parity2(V)` is the sum of V's 2-bit groups, modulo 4 (R131). -/
theorem parity2_toNat (v : DWord) : (parity2 v).toNat = groupSum v.toNat := by
  have hsum : ((List.range 32).map (bitPair v)).sum = ∑ i ∈ Finset.range 32, v.toNat / 4 ^ i % 4 := by
    simp only [funext (bitPair_eq v)]
    rfl
  rw [parity2, hsum, BitVec.toNat_ofNat, Nat.mod_mod, groupSum]

/-- Index k is bits 65-11k : 55-11k of the stream `V << 2 | p` (R132). -/
theorem wordIndices_toNat (v : DWord) (p : BitVec 2) (k : Fin 6) :
    (wordIndices v p)[k].toNat = (v.toNat * 4 + p.toNat) / 2 ^ (55 - 11 * k.val) % 2048 := by
  have hindex : (wordIndices v p)[k] = wordIndex v p k := by
    fin_cases k <;> rfl
  rw [hindex, wordIndex, BitVec.extractLsb'_toNat, Nat.shiftRight_eq_div_pow, toNat_append_eq,
    show 2 ^ 2 = 4 by norm_num, show 2 ^ 11 = 2048 by norm_num]

/-- A stream of 66 bits is the sum of its six 11-bit groups, each at its place. -/
theorem sum_stream_groups {n : Nat} (h : n < 2 ^ 66) :
    ∑ k : Fin 6, n / 2 ^ (55 - 11 * k.val) % 2048 * 2 ^ (55 - 11 * k.val) = n := by
  simp only [Fin.sum_univ_six]
  norm_num
  omega

/-- The six indices put together again are the stream (R137 (a)). -/
theorem sum_wordIndices (v : DWord) (p : BitVec 2) :
    ∑ k : Fin 6, (wordIndices v p)[k].toNat * 2 ^ (55 - 11 * k.val) = v.toNat * 4 + p.toNat := by
  have hv := v.isLt
  have hp := p.isLt
  simp only [wordIndices_toNat]
  exact sum_stream_groups (by omega)

/-- The indices determine the value they were taken from, whatever the parity (R137 (a)). -/
theorem value_eq_of_wordIndices {v v' : DWord} {p p' : BitVec 2} (h : wordIndices v p = wordIndices v' p') : v = v' := by
  have hp := p.isLt
  have hp' := p'.isLt
  have hstream : v.toNat * 4 + p.toNat = v'.toNat * 4 + p'.toNat := by
    rw [← sum_wordIndices, h, sum_wordIndices]
  exact BitVec.eq_of_toNat_eq (by omega)

/-! ### The text of WORD_ENC -/

/-- The text is the six words with single spaces between them (R134). -/
theorem wordText_eq_sixWords (idx : Vector (BitVec 11) 6) : wordText idx = sixWords idx := by
  simp [wordText, sixWords, dictChars, space, List.finRange_succ, List.intercalate]

theorem sixWords_length (idx : Vector (BitVec 11) 6) : 11 ≤ (sixWords idx).length ∧ (sixWords idx).length ≤ 29 :=
  wordText_eq_sixWords idx ▸ wordText_length idx

theorem sixWords_length_le_dout (idx : Vector (BitVec 11) 6) : (sixWords idx).length ≤ 32 :=
  (sixWords_length idx).2.trans (by norm_num)

/-- The results of a WORD_ENC of a FoldedValue (R130). -/
theorem exec_wordEnc_results {s : State} (hv : s.status.vvalid = true) : ∃ t, exec .wordEnc s = .next t ∧
    t.parity = parity2 s.v ∧ t.widx = wordIndices s.v (parity2 s.v) ∧ Output s t (sixWords t.widx) ∧ Succeeded t := by
  -- For any indices: unifying the texts themselves would unfold the encoder.
  have hresults (p : BitVec 2) (idx : Vector (BitVec 11) 6) (hnext : exec .wordEnc s =
      .next (complete (sixWords idx) (s.withWords p idx))) : ∃ t, exec .wordEnc s = .next t ∧ t.parity = p ∧
      t.widx = idx ∧ Output s t (sixWords t.widx) ∧ Succeeded t :=
    ⟨_, hnext, rfl, rfl, complete_output (sixWords_length_le_dout idx) _, rfl, rfl, rfl, rfl⟩
  exact hresults _ _ (wordText_eq_sixWords _ ▸ exec_wordEnc_of_value hv)

/-- Settles O22: parity, indices and text are their formulas; the rest is what WORD_ENC leaves alone. -/
theorem wordEncCompletes : Obligations.WordEncCompletes := by
  intro s hv
  obtain ⟨t, hnext, hparity, hwidx, houtput, hsucceeded⟩ := exec_wordEnc_results hv
  have hframe := exec_framed hnext
  obtain ⟨hmin, hmax⟩ := sixWords_length t.widx
  refine ⟨t, hnext, ?_, fun k => ?_, houtput, hmin, hmax, hsucceeded, hframe.inputs, hframe.value nofun,
    hframe.counter nofun, hframe.snum nofun⟩
  · rw [hparity, parity2_toNat]
  · rw [hwidx, wordIndices_toNat, parity2_toNat]

/-- Settles O24: WORD_ENC's check fails, and an error completion does what R185 says. -/
theorem wordEncWithoutValue : Obligations.WordEncWithoutValue := fun s hv =>
  ⟨_, exec_wordEnc_of_no_value hv, errorComplete_errorCompleted .noValue s⟩

/-! ### The text read back -/

/-- A list without the filler is known from what is read with the filler past its end. -/
theorem getElem?_eq_ite_getD {α : Type} [DecidableEq α] {xs : List α} {d : α} (hd : d ∉ xs) (a : Nat) :
    xs[a]? = if xs.getD a d = d then none else some (xs.getD a d) := by
  rw [List.getD_eq_getElem?_getD]
  cases hget : xs[a]? with
  | none => simp
  | some x =>
    have hx : x ≠ d := fun h => hd (h ▸ List.mem_of_getElem? hget)
    simp [hx]

/-- Two outputs without 0x00 bytes that leave the same bytes in DOUT are the same (60_exceptions.md R184). -/
theorem eq_of_dout_bytes {out out' : List Byte} (hlen : out.length ≤ 32) (hlen' : out'.length ≤ 32) (hzero : 0 ∉ out)
    (hzero' : 0 ∉ out') (h : ∀ a, a < 32 → out.getD a 0 = out'.getD a 0) : out = out' := by
  refine List.ext_getElem? fun a => ?_
  by_cases ha : a < 32
  · rw [getElem?_eq_ite_getD hzero, getElem?_eq_ite_getD hzero', h a ha]
  · rw [List.getElem?_eq_none (by omega), List.getElem?_eq_none (by omega)]

/-- No byte below `A` stands in a word: neither a space nor a 0x00. -/
theorem not_mem_wordChars {w : DictWord} {c : Byte} (hc : c.toNat < 0x41) : c ∉ wordChars w := fun h => by
  have := (mem_wordChars h).1
  omega

theorem zero_not_mem_sixWords (idx : Vector (BitVec 11) 6) : 0 ∉ sixWords idx := by
  have hword (i : BitVec 11) : 0#8 ∉ wordChars (Config.dict i) := not_mem_wordChars (by decide)
  rw [← wordText_eq_sixWords]
  simp [wordText, dictChars, space, hword]

/-- The six words are what stands between the spaces of the text (R134). -/
theorem splitOn_sixWords (idx : Vector (BitVec 11) 6) :
    (sixWords idx).splitOn 0x20 = (List.finRange 6).map fun k => wordChars (Config.dict idx[k]) := by
  refine List.splitOn_intercalate 0x20 (fun word hword => ?_) (by simp)
  obtain ⟨k, -, rfl⟩ := List.mem_map.mp hword
  exact not_mem_wordChars (by decide)

/-- The text determines the six indices, whatever dictionary DICT is (R133 (b)). -/
theorem sixWords_injective : Function.Injective sixWords := by
  intro idx idx' h
  have hwords := congrArg (List.splitOn 0x20) h
  rw [splitOn_sixWords, splitOn_sixWords, List.map_inj_left] at hwords
  exact Vector.ext fun k hk => dict_wordChars_injective (hwords ⟨k, hk⟩ (List.mem_finRange _))

/-- Settles O27: DOUT determines the text, the text the indices, and the indices the value. -/
theorem wordTextDeterminesValue : Obligations.WordTextDeterminesValue := by
  intro s s' t t' hv hv' ht ht' hdout
  obtain ⟨u, hnext, -, hwidx, ⟨-, hbytes, -⟩, -⟩ := exec_wordEnc_results hv
  obtain ⟨u', hnext', -, hwidx', ⟨-, hbytes', -⟩, -⟩ := exec_wordEnc_results hv'
  cases hnext.symm.trans ht
  cases hnext'.symm.trans ht'
  have htext : sixWords t.widx = sixWords t'.widx :=
    eq_of_dout_bytes (sixWords_length_le_dout _) (sixWords_length_le_dout _) (zero_not_mem_sixWords _)
      (zero_not_mem_sixWords _) fun a ha => by rw [← hbytes a ha, ← hbytes' a ha, hdout a ha]
  have hindices := sixWords_injective htext
  rw [hwidx, hwidx'] at hindices
  exact value_eq_of_wordIndices hindices

end Sys2Proof.Machine
end

section
/-! HEX_ENC: the hexadecimal text of a FoldedValue, and how the two encoders' outputs are decoded (42_encoders.md R135
to R137). -/

namespace Sys2Proof.Machine

open Sys2Proof.Claims

/-! ### The text of HEX_ENC -/

/-- `hexchar(n)`: a decimal digit or a lowercase letter (R135). -/
theorem hexChar_toNat {n : Nat} (h : n < 16) :
    (hexChar n).toNat = if n ≤ 9 then 0x30 + n else 0x61 + (n - 10) := by
  unfold hexChar
  split
  · rw [BitVec.toNat_ofNat]; omega
  · rw [BitVec.toNat_ofNat]; omega

theorem hexValue_hexChar {n : Nat} (h : n < 16) : hexValue (hexChar n) = n := by
  rw [hexValue, hexChar_toNat h]
  split <;> split <;> omega

/-- Hex digit k of a value, the first the most significant. -/
def hexDigit (v : DWord) (k : Nat) : Nat := v.toNat / 16 ^ (15 - k) % 16

theorem hexDigit_lt (v : DWord) (k : Nat) : hexDigit v k < 16 := Nat.mod_lt _ (by norm_num)

/-- Byte j of V is hex digits 2j and 2j+1 (R136). -/
theorem valueByte_toNat (v : DWord) {j : Nat} (hj : j < 8) :
    (valueByte v j).toNat = hexDigit v (2 * j) * 16 + hexDigit v (2 * j + 1) := by
  have hshift : 2 ^ (56 - 8 * j) = 16 ^ (15 - (2 * j + 1)) := by
    rw [show 16 = 2 ^ 4 by norm_num, ← pow_mul, show 4 * (15 - (2 * j + 1)) = 56 - 8 * j by omega]
  have hhigh : 16 ^ (15 - 2 * j) = 16 ^ (15 - (2 * j + 1)) * 16 := by
    rw [← pow_succ, show 15 - (2 * j + 1) + 1 = 15 - 2 * j by omega]
  rw [valueByte, BitVec.extractLsb'_toNat, Nat.shiftRight_eq_div_pow, hshift, hexDigit, hexDigit, hhigh,
    ← Nat.div_div_eq_div_mul]
  omega

theorem hexPair_valueByte (v : DWord) {j : Nat} (hj : j < 8) :
    hexPair (valueByte v j) = [hexChar (hexDigit v (2 * j)), hexChar (hexDigit v (2 * j + 1))] := by
  have hlow := hexDigit_lt v (2 * j + 1)
  have hbyte := valueByte_toNat v hj
  rw [hexPair, show (valueByte v j).toNat / 16 = hexDigit v (2 * j) by omega,
    show (valueByte v j).toNat % 16 = hexDigit v (2 * j + 1) by omega]

/-- Pairs put one after the other are one sequence. -/
theorem flatMap_pairs {α : Type} (f : Nat → α) (n : Nat) :
    ((List.range n).flatMap fun j => [f (2 * j), f (2 * j + 1)]) = (List.range (2 * n)).map f := by
  induction n with
  | zero => rfl
  | succ n ih => simp [List.range_succ, ih, show 2 * (n + 1) = 2 * n + 1 + 1 by omega]

/-- The text is the 16 hex digits of V (R136). -/
theorem hexText_eq_map_hexDigit (v : DWord) : hexText v = (List.range 16).map fun k => hexChar (hexDigit v k) := by
  rw [hexText, List.flatMap_congr fun j hj => hexPair_valueByte v (List.mem_range.mp hj)]
  exact flatMap_pairs (fun k => hexChar (hexDigit v k)) 8

theorem hexText_getD (v : DWord) {k : Nat} (hk : k < 16) : (hexText v).getD k 0 = hexChar (hexDigit v k) := by
  simp [hexText_eq_map_hexDigit, List.getD_eq_getElem?_getD, hk]

/-- The results of a HEX_ENC of a FoldedValue (R136). -/
theorem exec_hexEnc_results {s : State} (hv : s.status.vvalid = true) :
    ∃ t, exec .hexEnc s = .next t ∧ Output s t (hexText s.v) ∧ Succeeded t :=
  ⟨_, exec_hexEnc_of_value hv, complete_output (by simp) s, rfl, rfl, rfl, rfl⟩

/-- Character k in DOUT after a HEX_ENC. -/
theorem read_hexText {s t : State} (h : Output s t (hexText s.v)) {k : Nat} (hk : k < 16) :
    t.dout.read k = hexChar (hexDigit s.v k) := by
  obtain ⟨-, hbytes, -⟩ := h
  rw [hbytes k (by omega), hexText_getD s.v hk]

/-- A command has one word (30_encoding.md R84). -/
theorem decode_eq_ok_iff {i : Instr} (h : i.WellFormed) (w : Word) : decode w = .ok i ↔ w = encode i :=
  ⟨fun hw => (encoding_of_decode hw).2.symm, fun hw => hw ▸ decode_encode h⟩

/-- Settles O23: the characters are V's hex digits; the rest is what a completion does and what HEX_ENC leaves alone. -/
theorem hexEncCompletes : Obligations.HexEncCompletes := by
  refine ⟨decode_eq_ok_iff (i := .hexEnc) rfl, fun s => ⟨fun hv => ?_, fun hv => ?_⟩⟩
  · obtain ⟨t, hnext, houtput, hsucceeded⟩ := exec_hexEnc_results hv
    have ⟨hlen, hbytes, _⟩ := houtput
    have hframe := exec_framed hnext
    refine ⟨t, hnext, fun k hk => ?_, by simpa using hlen, fun a ha ha' => ?_, hframe.dout, hsucceeded, hframe.inputs,
      hframe.value nofun, hframe.words nofun, hframe.counter nofun, hframe.snum nofun⟩
    · rw [read_hexText houtput hk, hexChar_toNat (hexDigit_lt s.v k)]
      rfl
    · rw [hbytes a ha', List.getD_eq_default _ _ (by simpa using ha)]
  · exact ⟨_, exec_hexEnc_of_no_value hv, errorComplete_errorCompleted .noValue s⟩

/-! ### Decoding -/

/-- Settles O25: the indices add up to the stream, V and its parity; two hex characters are the digits of a byte. -/
theorem encodersCanBeDecoded : Obligations.EncodersCanBeDecoded := by
  intro s hv
  constructor
  · obtain ⟨t, hnext, -, hwidx, -, -⟩ := exec_wordEnc_results hv
    have hparity := (parity2 s.v).isLt
    refine ⟨t, hnext, ?_⟩
    rw [hwidx, sum_wordIndices, ← parity2_toNat]
    omega
  · obtain ⟨t, hnext, houtput, -⟩ := exec_hexEnc_results hv
    refine ⟨t, hnext, fun j hj => ?_⟩
    rw [read_hexText houtput (by omega), read_hexText houtput (by omega), hexValue_hexChar (hexDigit_lt _ _),
      hexValue_hexChar (hexDigit_lt _ _)]
    exact (valueByte_toNat s.v hj).symm

end Sys2Proof.Machine
end

section
/-! CTR_MSG and HOTP_TRUNC: the window of a MAC, the digits of a code and its check digit (43_hotp.md R150 to R156). -/

namespace Sys2Proof.Machine

open Sys2Proof.Claims

/-! ### CTR_MSG -/

/-- Settles O28: the message is COUNTER's big-endian bytes; the rest is what a completion does and what CTR_MSG leaves
alone. -/
theorem ctrMsgCompletes : Obligations.CtrMsgCompletes := by
  refine ⟨decode_eq_ok_iff (i := .ctrMsg) rfl, fun s => ?_⟩
  have hnext : exec .ctrMsg s = .next (complete (dwordBytes s.counter) s) := rfl
  have hframe := exec_framed hnext
  refine ⟨_, hnext, ?_, ⟨rfl, rfl, rfl, rfl⟩, hframe.inputs, hframe.value nofun, hframe.words nofun,
    hframe.counter nofun, hframe.snum nofun⟩
  rw [map_bigEndianByte]
  exact complete_output (by simp) s

/-! ### The window of a MAC -/

/-- The three algorithms of HOTP_TRUNC and their MAC lengths (R155). -/
theorem macLen_of_mem {alg : Alg} {len : Nat}
    (h : (alg, len) ∈ [(Alg.sha1, 20), (Alg.sha256, 32), (Alg.sha512, 64)]) : macLen alg = some len ∧ 20 ≤ len := by
  simp only [List.mem_cons, Prod.mk.injEq, List.not_mem_nil, or_false] at h
  rcases h with ⟨rfl, rfl⟩ | ⟨rfl, rfl⟩ | ⟨rfl, rfl⟩ <;> exact ⟨rfl, by norm_num⟩

/-- Every other algorithm has no MAC length (R155). -/
theorem macLen_eq_none {alg : Alg} (hsha1 : alg ≠ .sha1) (hsha256 : alg ≠ .sha256) (hsha512 : alg ≠ .sha512) :
    macLen alg = none := by
  cases alg with
  | sha1 => exact absurd rfl hsha1
  | sha256 => exact absurd rfl hsha256
  | sha512 => exact absurd rfl hsha512
  | md4 | md5 | reserved c => rfl

theorem State.digits_eq_digitsField (s : State) : s.digits = digitsField s := s.digits_eq

/-- A TOFF that HOTP_TRUNC takes selects an offset (R152). -/
theorem selectOffset_of_toffField {s : State} {len : Nat} (hlen : 20 ≤ len)
    (htoff : toffField s = 255 ∨ toffField s ≤ 15) : selectOffset s.toff len s.din =
      some (if toffField s = 255 then (s.din.read (len - 1)).toNat % 16 else toffField s) := by
  rw [selectOffset_eq s hlen]
  show (if toffField s = 255 then _ else if toffField s ≤ 15 then _ else none) = _
  split
  · rfl
  · next hfixed => exact if_pos (htoff.resolve_left hfixed)

/-- Any other TOFF selects none (R152, R156). -/
theorem selectOffset_eq_none {s : State} {len : Nat} (hlen : 20 ≤ len) (hlarge : 15 < toffField s)
    (hfixed : toffField s ≠ 255) : selectOffset s.toff len s.din = none := by
  rw [selectOffset_eq s hlen]
  exact (if_neg hfixed).trans (if_neg (Nat.not_le.mpr hlarge))

/-- Settles O33: each clause is the check of R182's order that fails first, and an error completion does what R185
says. -/
theorem hotpTruncRejects : Obligations.HotpTruncRejects := by
  refine fun s => ⟨fun alg hsha1 hsha256 hsha512 => ?_, fun alg halg => ?_⟩
  · exact ⟨_, exec_hotpTrunc_of_macLen_none (macLen_eq_none hsha1 hsha256 hsha512),
      errorComplete_errorCompleted .unsupportedAlgorithm s⟩
  · obtain ⟨len, hmac, hlen⟩ : ∃ len, macLen alg = some len ∧ 20 ≤ len := by
      rcases halg with rfl | rfl | rfl <;> exact ⟨_, rfl, by norm_num⟩
    have hdigits := s.digits_eq_digitsField
    refine ⟨fun hrange => ?_, fun hmin hmax hlarge hfixed => ?_⟩
    · exact ⟨_, exec_hotpTrunc_of_digits hmac (hdigits ▸ hrange), errorComplete_errorCompleted .invalidParameter s⟩
    · exact ⟨_, exec_hotpTrunc_of_offset_none hmac (by omega) (selectOffset_eq_none hlen hlarge hfixed),
        errorComplete_errorCompleted .invalidOffset s⟩

/-! ### The check digit -/

/-- Decimal digit i of r, 0 the rightmost. -/
def decimalDigit (r i : Nat) : Nat := r / 10 ^ i % 10

theorem decimalDigit_lt (r i : Nat) : decimalDigit r i < 10 := Nat.mod_lt _ (by norm_num)

/-- The doubling of R154 as its table. -/
theorem luhnTerm_eq_table {i x : Nat} (hx : x < 10) :
    luhnTerm i x = if i % 2 = 0 then [0, 2, 4, 6, 8, 1, 3, 5, 7, 9].getD x 0 else x := by
  have htable : (if 2 * x > 9 then 2 * x - 9 else 2 * x) = [0, 2, 4, 6, 8, 1, 3, 5, 7, 9].getD x 0 := by
    decide +revert
  rw [luhnTerm, htable]

theorem luhnTotal_eq_sum (r d : Nat) :
    luhnTotal r d = ∑ i ∈ Finset.range d, luhnTerm i (decimalDigit r i) := rfl

theorem luhn_eq_checkDigit (r d : Nat) : luhn r d = checkDigit r d := by
  simp only [luhn, luhnTotal_eq_sum, checkDigit, luhnTerm_eq_table (decimalDigit_lt r _)]
  rfl

theorem luhn_lt (r d : Nat) : luhn r d < 10 := Nat.mod_lt _ (by norm_num)

/-- The check digit makes the total a multiple of 10. -/
theorem luhnTotal_add_luhn (r d : Nat) : (luhnTotal r d + luhn r d) % 10 = 0 := by
  unfold luhn
  omega

/-- A position past the digits of r adds nothing to the total (R154). -/
theorem luhnTotal_of_lt {r d d' : Nat} (hr : r < 10 ^ d) (hd : d ≤ d') : luhnTotal r d' = luhnTotal r d := by
  induction d', hd using Nat.le_induction with
  | base => rfl
  | succ n hn ih =>
    have hdigit : decimalDigit r n = 0 := by
      rw [decimalDigit, Nat.div_eq_of_lt (hr.trans_le (Nat.pow_le_pow_right (by norm_num) hn))]
    rw [luhnTotal_eq_sum, Finset.sum_range_succ, ← luhnTotal_eq_sum, ih, hdigit]
    simp [luhnTerm]

/-- Settles O32: the totals are the same. -/
theorem checkDigitIgnoresLeadingZeros : Obligations.CheckDigitIgnoresLeadingZeros := by
  intro r d d' hr hd
  rw [luhn, luhn, luhnTotal_of_lt hr hd]

/-! ### The text of a code -/

/-- The d digits denote r modulo `10^d` (R153). -/
theorem sum_decimalDigit (r d : Nat) : ∑ i ∈ Finset.range d, decimalDigit r i * 10 ^ i = r % 10 ^ d := by
  induction d with
  | zero => simp [Nat.mod_one]
  | succ d ih => rw [Finset.sum_range_succ, ih, Nat.mod_pow_succ, decimalDigit, Nat.mul_comm (10 ^ d)]

theorem digitChar_toNat {n : Nat} (h : n < 10) : (digitChar n).toNat = 0x30 + n := by
  rw [digitChar, BitVec.toNat_ofNat]
  omega

theorem decimalText_getD {r d i : Nat} (hi : i < d) :
    (decimalText r d).getD i 0 = digitChar (decimalDigit r (d - 1 - i)) := by
  simp [decimalText, decimalDigit, List.getD_eq_getElem?_getD, hi]

theorem hotpText_getD_digit {n d i : Nat} (chk : Bool) (hi : i < d) :
    (hotpText n d chk).getD i 0 = digitChar (decimalDigit (n % 10 ^ d) (d - 1 - i)) := by
  rw [hotpText, List.getD_append _ _ _ _ (by simpa using hi), decimalText_getD hi]

theorem hotpText_getD_check (n d : Nat) :
    (hotpText n d true).getD d 0 = digitChar (luhn (n % 10 ^ d) d) := by
  rw [hotpText, List.getD_append_right _ _ _ _ (by simp)]
  simp

theorem hotpText_length_le_dout {d : Nat} (hd : d ≤ 10) (n : Nat) (chk : Bool) : (hotpText n d chk).length ≤ 32 := by
  rw [hotpText_length]
  split <;> omega

/-! ### A code in DOUT -/

section
variable {s t : State} {n d : Nat} {chk : Bool}

/-- Byte i of DOUT is a digit of the code (R153). -/
theorem read_hotpText_digit (h : Output s t (hotpText n d chk)) (hd : d ≤ 10) {i : Nat} (hi : i < d) :
    (t.dout.read i).toNat = 0x30 + decimalDigit (n % 10 ^ d) (d - 1 - i) := by
  obtain ⟨-, hbytes, -⟩ := h
  rw [hbytes i (by omega), hotpText_getD_digit chk hi, digitChar_toNat (decimalDigit_lt _ _)]

/-- The digits of a code counted from the right, from the one before the check digit on. -/
theorem read_hotpText_from_right (h : Output s t (hotpText n d chk)) (hd : d ≤ 10) {j : Nat} (hj : j < d) :
    (t.dout.read (d - (j + 1))).toNat = 0x30 + decimalDigit (n % 10 ^ d) j := by
  rw [read_hotpText_digit h hd (by omega), show d - 1 - (d - (j + 1)) = j by omega]

/-- Byte d of DOUT is the check digit, where CHK = 1 (R154). -/
theorem read_hotpText_check (h : Output s t (hotpText n d true)) (hd : d ≤ 10) :
    (t.dout.read d).toNat = 0x30 + luhn (n % 10 ^ d) d := by
  obtain ⟨-, hbytes, -⟩ := h
  rw [hbytes d (by omega), hotpText_getD_check, digitChar_toNat (luhn_lt _ _)]

end

/-- The results of a HOTP_TRUNC whose window is chosen (R151). -/
theorem exec_hotpTrunc_results {alg : Alg} {len off : Nat} {s : State} (hmac : macLen alg = some len)
    (hmin : 6 ≤ digitsField s) (hmax : digitsField s ≤ 10) (hoff : selectOffset s.toff len s.din = some off) :
    ∃ t, exec (.hotpTrunc alg) s = .next t ∧ t.snum.toNat = truncated s.din off ∧
      Output s t (hotpText (truncated s.din off) (digitsField s) (s.hotpCfg.getLsbD 4)) ∧ Succeeded t := by
  rw [← s.digits_eq_digitsField] at hmin hmax ⊢
  refine ⟨_, exec_hotpTrunc_of_offset hmac (by omega) hoff, ?_, complete_output (hotpText_length_le_dout hmax _ _) _,
    rfl, rfl, rfl, rfl⟩
  exact (BitVec.toNat_ofNat _ _).trans (Nat.mod_eq_of_lt (truncated_lt s.din off))

/-- A HOTP_TRUNC that reports no error leaves the code of the new SNUM in DOUT (R151). -/
theorem output_of_hotpTrunc_success {alg : Alg} {s t : State} (ht : exec (.hotpTrunc alg) s = .next t)
    (hsuccess : t.status.err = false) : digitsField s ≤ 10 ∧
      Output s t (hotpText t.snum.toNat (digitsField s) (s.hotpCfg.getLsbD 4)) := by
  have hnot_raised {k : ErrorKind} : exec (.hotpTrunc alg) s ≠ raise k s := fun hraise => by
    cases hraise.symm.trans ht
    cases hsuccess
  cases hmac : macLen alg with
  | none => exact absurd (exec_hotpTrunc_of_macLen_none hmac) hnot_raised
  | some len =>
    by_cases hdigits : s.digits < 6 ∨ 10 < s.digits
    · exact absurd (exec_hotpTrunc_of_digits hmac hdigits) hnot_raised
    · cases hoff : selectOffset s.toff len s.din with
      | none => exact absurd (exec_hotpTrunc_of_offset_none hmac hdigits hoff) hnot_raised
      | some off =>
        rw [s.digits_eq_digitsField] at hdigits
        obtain ⟨u, hnext, hsnum, houtput, -⟩ := exec_hotpTrunc_results hmac (by omega) (by omega) hoff
        cases hnext.symm.trans ht
        exact ⟨by omega, hsnum ▸ houtput⟩

/-- Settles O29: SNUM is the window's value, DOUT its code; the rest is what a completion does and what HOTP_TRUNC leaves
alone. -/
theorem hotpTruncCompletes : Obligations.HotpTruncCompletes := by
  intro alg macBytes off snum r s hmem hmin hmax htoff hoff hsnum hr
  obtain ⟨hmac, hlen⟩ := macLen_of_mem hmem
  obtain ⟨t, hnext, htrunc, houtput, hsucceeded⟩ :=
    exec_hotpTrunc_results hmac hmin hmax (hoff ▸ selectOffset_of_toffField hlen htoff)
  have hvalue : truncated s.din off = snum := (truncated_eq s.din off).trans hsnum.symm
  rw [hvalue] at htrunc houtput
  have ⟨hlength, hbytes, habove⟩ := houtput
  have hframe := exec_framed hnext
  refine ⟨t, hnext, htrunc, fun i hi => ?_, fun hchk => ?_, fun hchk => ?_, fun a ha ha' => ?_, habove, hsucceeded,
    hframe.inputs, hframe.value nofun, hframe.words nofun, hframe.counter nofun⟩
  · rw [hr]
    exact read_hotpText_digit houtput hmax hi
  · rw [hchk] at hlength houtput
    rw [hr, ← luhn_eq_checkDigit]
    exact ⟨hlength.trans (hotpText_length _ _ _), read_hotpText_check houtput hmax⟩
  · rw [hlength, hchk, hotpText_length, if_neg Bool.false_ne_true]
  · rw [hbytes a ha', List.getD_eq_default _ _ (hlength ▸ ha)]

/-- Settles O30: the bytes are the digits of `snum mod 10^d`, and the digits of a number denote it. -/
theorem hotpCodeDenotesValue : Obligations.HotpCodeDenotesValue := by
  intro alg s t ht hsuccess
  obtain ⟨hmax, houtput⟩ := output_of_hotpTrunc_success ht hsuccess
  have hread (i : Nat) (hi : i < digitsField s) := read_hotpText_digit houtput hmax hi
  refine ⟨fun i hi => ?_, ?_⟩
  · have := decimalDigit_lt (t.snum.toNat % 10 ^ digitsField s) (digitsField s - 1 - i)
    have := hread i hi
    omega
  · calc ∑ i ∈ Finset.range (digitsField s), ((t.dout.read i).toNat - 0x30) * 10 ^ (digitsField s - 1 - i)
        = ∑ i ∈ Finset.range (digitsField s), decimalDigit (t.snum.toNat % 10 ^ digitsField s)
            (digitsField s - 1 - i) * 10 ^ (digitsField s - 1 - i) :=
          Finset.sum_congr rfl fun i hi => by rw [hread i (Finset.mem_range.mp hi), Nat.add_sub_cancel_left]
      _ = ∑ i ∈ Finset.range (digitsField s), decimalDigit (t.snum.toNat % 10 ^ digitsField s) i * 10 ^ i :=
          Finset.sum_range_reflect (fun i => decimalDigit (t.snum.toNat % 10 ^ digitsField s) i * 10 ^ i) _
      _ = t.snum.toNat % 10 ^ digitsField s := by rw [sum_decimalDigit, Nat.mod_mod]

/-- Settles O31: from the right, the check digit comes first, and the digits after it add up to the total that it was
chosen for. -/
theorem hotpCodePassesLuhn : Obligations.HotpCodePassesLuhn := by
  intro alg s t ht hsuccess hchk
  obtain ⟨hmax, houtput⟩ := output_of_hotpTrunc_success ht hsuccess
  rw [hchk] at houtput
  have htotal : ∑ j ∈ Finset.range (digitsField s),
      (if (j + 1) % 2 = 1 then
        [0, 2, 4, 6, 8, 1, 3, 5, 7, 9].getD ((t.dout.read (digitsField s - (j + 1))).toNat - 0x30) 0
      else (t.dout.read (digitsField s - (j + 1))).toNat - 0x30) =
      luhnTotal (t.snum.toNat % 10 ^ digitsField s) (digitsField s) := by
    rw [luhnTotal_eq_sum]
    refine Finset.sum_congr rfl fun j hj => ?_
    rw [read_hotpText_from_right houtput hmax (Finset.mem_range.mp hj), Nat.add_sub_cancel_left,
      luhnTerm_eq_table (decimalDigit_lt _ _)]
    exact if_congr (by omega) rfl rfl
  rw [Finset.sum_range_succ', htotal, Nat.sub_zero, read_hotpText_check houtput hmax, if_neg (by norm_num),
    Nat.add_sub_cancel_left]
  exact luhnTotal_add_luhn _ _

/-! ### HOTP_TRUNC reads the last byte and the window only -/

theorem truncated_congr {m m' : Memory} {off : Nat} (h : ∀ j, j < 4 → m.read (off + j) = m'.read (off + j)) :
    truncated m off = truncated m' off := by
  have hfirst : m.read off = m'.read off := h 0 (by norm_num)
  rw [truncated_eq, truncated_eq, hfirst, h 1 (by norm_num), h 2 (by norm_num), h 3 (by norm_num)]

/-- Of DIN, the choice of the offset reads the MAC's last byte only (R152). -/
theorem selectOffset_congr {m m' : Memory} {len : Nat} (t : Int) (h : m.read (len - 1) = m'.read (len - 1)) :
    selectOffset t len m = selectOffset t len m' := by
  rw [selectOffset, selectOffset, h]

/-- Settles O34: the two states run into the same case, with the same offset and the same window. -/
theorem hotpReadsOnlyItsWindow : Obligations.HotpReadsOnlyItsWindow := by
  intro alg macBytes off s s' t t' hmem hcfg hlast hoff hwindow ht ht'
  obtain ⟨hmac, hlen⟩ := macLen_of_mem hmem
  have hdigits : s'.digits = s.digits := by rw [State.digits, State.digits, hcfg]
  have hchk : s'.chk = s.chk := by rw [State.chk, State.chk, hcfg]
  have hselect : selectOffset s'.toff macBytes s'.din = selectOffset s.toff macBytes s.din := by
    rw [selectOffset_congr _ hlast, State.toff, State.toff, hcfg]
  have hdout {out : List Byte} (hout : out.length ≤ 32) (a : Nat) (ha : a < 32) :
      (s.dout.withOutput out).read a = (s'.dout.withOutput out).read a :=
    Memory.read_withOutput_congr hout ha
  by_cases hrange : s.digits < 6 ∨ 10 < s.digits
  · cases (exec_hotpTrunc_of_digits hmac hrange).symm.trans ht
    cases (exec_hotpTrunc_of_digits hmac (hdigits ▸ hrange)).symm.trans ht'
    exact ⟨rfl, hdout (Nat.zero_le 32), rfl, nofun⟩
  · have hrange' := hdigits ▸ hrange
    by_cases htoff : toffField s = 255 ∨ toffField s ≤ 15
    · have hsome := hoff ▸ selectOffset_of_toffField hlen htoff
      cases (exec_hotpTrunc_of_offset hmac hrange hsome).symm.trans ht
      cases (exec_hotpTrunc_of_offset hmac hrange' (hselect.trans hsome)).symm.trans ht'
      rw [← truncated_congr hwindow, hdigits, hchk]
      exact ⟨rfl, hdout (hotpText_length_le_dout (by omega) _ _), rfl, fun _ => rfl⟩
    · have hnone := selectOffset_eq_none hlen (s := s) (by omega) (by omega)
      cases (exec_hotpTrunc_of_offset_none hmac hrange hnone).symm.trans ht
      cases (exec_hotpTrunc_of_offset_none hmac hrange' (hselect.trans hnone)).symm.trans ht'
      exact ⟨rfl, hdout (Nat.zero_le 32), rfl, nofun⟩

end Sys2Proof.Machine
end

section
/-! TOTP_CTR: the counter as the floor of the effective time over STEP, the two checks before it, and the message of the
new COUNTER (44_totp.md R170 to R173). -/

namespace Sys2Proof.Machine

open Sys2Proof.Claims

/-! ### The operands of TOTP_CTR -/

theorem State.stepSeconds_eq_zero_iff {s : State} : s.stepSeconds = 0 ↔ s.totpStep = 0 :=
  (BitVec.toNat_eq (y := 0)).symm

/-- The effective time in the register values (44_totp.md R171). -/
theorem State.effectiveTime_eq (s : State) :
    s.effectiveTime = s.totpTime.toInt - 3600 * s.totpUtcoff.toInt := rfl

/-- The effective time passes the largest TIME by at most 128 hours (44_totp.md R171). -/
theorem State.effectiveTime_lt (s : State) : s.effectiveTime < 2 ^ 64 := by
  have htime := BitVec.toInt_lt (x := s.totpTime)
  have hoffset := BitVec.le_toInt s.totpUtcoff
  rw [s.effectiveTime_eq]
  omega

/-! ### The counter -/

/-- A floor of at most the effective time fits COUNTER (44_totp.md R172). -/
theorem timeCounter_toNat {e : Int} (hnonneg : 0 ≤ e) (hlt : e < 2 ^ 64) (step : Nat) :
    ((BitVec.ofInt 64 (timeCounter e step)).toNat : Int) = e / step := by
  have hquot_nonneg : 0 ≤ e / step := Int.ediv_nonneg hnonneg (Int.natCast_nonneg step)
  have hquot_le : e / step ≤ e := Int.ediv_le_self _ hnonneg
  rw [timeCounter, BitVec.toNat_ofInt]
  omega

/-- The steps that COUNTER counts are the whole ones in the effective time (44_totp.md R172). -/
theorem timeCounter_bounds {e : Int} (hnonneg : 0 ≤ e) (hlt : e < 2 ^ 64) {step : Nat} (hstep : step ≠ 0) :
    ((BitVec.ofInt 64 (timeCounter e step)).toNat : Int) * step ≤ e ∧
      e < (((BitVec.ofInt 64 (timeCounter e step)).toNat : Int) + 1) * step := by
  rw [timeCounter_toNat hnonneg hlt]
  exact ⟨Int.ediv_mul_le e (by omega), Int.lt_ediv_add_one_mul_self e (by omega)⟩

/-- Settles O35: the counter is the floor of R172, the message its eight bytes; the rest is what a completion does and
what TOTP_CTR leaves alone. -/
theorem totpCtrCompletes : Obligations.TotpCtrCompletes := by
  intro s e he hstep hnonneg
  rw [← s.effectiveTime_eq] at he
  subst he
  have hstep' : s.stepSeconds ≠ 0 := mt State.stepSeconds_eq_zero_iff.mp hstep
  have hnext := exec_totpCtr_of_time hstep' hnonneg.not_gt
  have hframe := exec_framed hnext
  obtain ⟨hlower, hupper⟩ := timeCounter_bounds hnonneg s.effectiveTime_lt hstep'
  refine ⟨_, hnext, hlower, hupper, ?_, ⟨rfl, rfl, rfl, rfl⟩, hframe.inputs, hframe.value nofun, hframe.words nofun,
    hframe.snum nofun⟩
  rw [map_bigEndianByte]
  exact complete_output (by simp) _

/-! ### What TOTP_CTR turns away -/

/-- Settles O36: each clause is the check of R182's order that fails first, and an error completion does what R185
says. -/
theorem totpCtrRejects : Obligations.TotpCtrRejects := by
  refine fun s => ⟨fun hstep => ?_, fun hstep htime => ?_⟩
  · exact ⟨_, exec_totpCtr_of_step_zero (State.stepSeconds_eq_zero_iff.mpr hstep),
      errorComplete_errorCompleted .invalidParameter s⟩
  · exact ⟨_, exec_totpCtr_of_time_neg (mt State.stepSeconds_eq_zero_iff.mp hstep) (Int.sub_neg_of_lt htime),
      errorComplete_errorCompleted .invalidTimeInput s⟩

/-! ### The message of the new COUNTER -/

/-- A TOTP_CTR that reports no error leaves the new COUNTER and its message (44_totp.md R170). -/
theorem eq_complete_of_totpCtr_success {s t : State} (ht : exec .totpCtr s = .next t)
    (hsuccess : t.status.err = false) : t = complete (dwordBytes t.counter) (s.withCounter t.counter) := by
  have hnot_raised {k : ErrorKind} : exec .totpCtr s ≠ raise k s := fun hraise => by
    cases hraise.symm.trans ht
    cases hsuccess
  by_cases hstep : s.stepSeconds = 0
  · exact absurd (exec_totpCtr_of_step_zero hstep) hnot_raised
  · by_cases htime : s.effectiveTime < 0
    · exact absurd (exec_totpCtr_of_time_neg hstep htime) hnot_raised
    · cases (exec_totpCtr_of_time hstep htime).symm.trans ht
      rfl

/-- Settles O37: CTR_MSG completes with the message that DOUT already holds. -/
theorem totpMessageIsCtrMsg : Obligations.TotpMessageIsCtrMsg := by
  intro s t ht hsuccess
  have hmessage := eq_complete_of_totpCtr_success ht hsuccess
  have hagain : complete (dwordBytes t.counter) t = t :=
    calc complete (dwordBytes t.counter) t
        = complete (dwordBytes t.counter) (complete (dwordBytes t.counter) (s.withCounter t.counter)) :=
          congrArg _ hmessage
      _ = complete (dwordBytes t.counter) (s.withCounter t.counter) := complete_complete (by simp) _
      _ = t := hmessage.symm
  exact congrArg Host.Outcome.next hagain

end Sys2Proof.Machine
end

section
/-! Completion and errors (60_exceptions.md R180 to R185): the Block's turn runs the command in CUR, whose completion
reports the first error that applies in R182's order, or succeeds with an output of R184's length. -/

namespace Sys2Proof.Machine

open Sys2Proof.Claims

/-! ### The Block's turn -/

/-- Past the agenda's end the Block's turn while BUSY = 1 is the completion too (log 6). -/
theorem step_nil_of_busy {s : State} (hbusy : s.status.busy = true) (hagenda : s.agenda = []) :
    step s = completeCurrent s :=
  (step_nil hagenda).trans (if_pos hbusy)

/-- The completion of a word that decodes is its command (60_exceptions.md R184). -/
theorem completeCurrent_of_decode {s : State} {i : Instr} (hdecode : decode s.cur = .ok i) :
    completeCurrent s = exec i s := by
  simp only [completeCurrent, hdecode]

/-- The completion of a word that does not decode is IllegalCommand (30_encoding.md R86). -/
theorem completeCurrent_of_decode_error {s : State} {e : IllegalWord} (hdecode : decode s.cur = .error e) :
    completeCurrent s = raise .illegalCommand s := by
  simp only [completeCurrent, hdecode]

/-- Settles O9: the Block's turn is the completion, and CUR does not change as the agenda moves on. -/
theorem stepRunsDecodedCommand : Obligations.StepRunsDecodedCommand := fun _ _ hbusy hdecode =>
  ⟨fun _ hagenda => (step_block_of_busy hbusy hagenda).trans (completeCurrent_of_decode hdecode),
    fun hagenda => (step_nil_of_busy hbusy hagenda).trans (completeCurrent_of_decode hdecode)⟩

/-- Settles O11: the Block's turn answers the state it is given. -/
theorem idleBlockTurnChangesNothing : Obligations.IdleBlockTurnChangesNothing := fun _ hidle =>
  ⟨fun _ hagenda => (step_cons hagenda).trans (blockTurn_of_idle hidle),
    fun hagenda => (step_nil hagenda).trans (blockTurn_of_idle hidle)⟩

/-! ### The error codes (60_exceptions.md R180) -/

theorem ErrorKind.code_ne_zero (k : ErrorKind) : k.code ≠ 0 := by
  cases k <;> decide

theorem errorTable_code {k : ErrorKind} {c : Nat} (h : (k, c) ∈ errorTable) : k.code.toNat = c :=
  (by decide : ∀ entry ∈ errorTable, entry.1.code.toNat = entry.2) _ h

/-- The codes in the check order of every command (60_exceptions.md R182). -/
theorem expectedCode_mem (i : Instr) (s : State) :
    expectedCode i s = 0 ∨ expectedCode i s ∈ [4, 5, 6, 7, 9, 10] := by
  cases i with
  | ctrMsg => exact .inl rfl
  | fold alg | wordEnc | hexEnc | hotpTrunc alg | totpCtr => rw [expectedCode]; split_ifs <;> decide

/-! ### The completion that R182's order gives -/

/-- o is a completion from s that reports code c: the error completion with that code, or, where c is 0, a success
completion with an output whose length satisfies `len` (60_exceptions.md R184, R185). -/
inductive CompletesWith (s : State) (c : Nat) (len : Nat → Prop) (o : Outcome) : Prop where
  | error (k : ErrorKind) (hcode : k.code.toNat = c) (hnext : o = raise k s)
  | success (out : List Byte) (u : State) (hcode : c = 0) (hlen : len out.length) (hnext : o = .next (complete out u))

/-- A command's completion is the one that the check order and R184's lengths say. -/
abbrev CompletesAsSaid (i : Instr) (s : State) : Prop :=
  CompletesWith s (expectedCode i s) (LengthOf i s) (exec i s)

/-- R184's lengths fit in DOUT. -/
theorem lengthOf_le_dout {i : Instr} {s : State} {n : Nat} (h : LengthOf i s n) : n ≤ 32 := by
  cases i with
  | wordEnc => exact h.2.trans (by norm_num)
  | hotpTrunc alg =>
    have hdigits : digitsField s < 16 := Nat.mod_lt _ (by norm_num)
    rw [LengthOf] at h
    split at h <;> omega
  | fold alg | hexEnc | ctrMsg | totpCtr => rw [LengthOf] at h; omega

theorem fold_completesAsSaid {alg : Alg} (hwf : alg.wf = true) (s : State) : CompletesAsSaid (.fold alg) s := by
  cases alg with
  | md4 | md5 | sha1 => exact .success [] _ rfl rfl (exec_fold_of_ok rfl)
  | sha256 | sha512 => exact .error _ rfl (exec_fold_of_error rfl)
  | reserved c => exact .error _ (if_pos (of_decide_eq_true hwf)).symm (exec_fold_of_error rfl)

theorem wordEnc_completesAsSaid (s : State) : CompletesAsSaid .wordEnc s := by
  cases hv : s.status.vvalid with
  | false => exact .error _ (if_neg (ne_true_of_eq_false hv)).symm (exec_wordEnc_of_no_value hv)
  | true => exact .success _ _ (if_pos hv) (wordText_length _) (exec_wordEnc_of_value hv)

theorem hexEnc_completesAsSaid (s : State) : CompletesAsSaid .hexEnc s := by
  cases hv : s.status.vvalid with
  | false => exact .error _ (if_neg (ne_true_of_eq_false hv)).symm (exec_hexEnc_of_no_value hv)
  | true => exact .success _ _ (if_pos hv) (hexText_length _) (exec_hexEnc_of_value hv)

/-- HOTP_TRUNC's three algorithms are those of ALG 2, 3 and 4 (30_encoding.md R82; 43_hotp.md R155). -/
theorem macLen_cases {alg : Alg} (hwf : alg.wf = true) :
    (macLen alg = none ∧ (alg.code.toNat < 2 ∨ 4 < alg.code.toNat)) ∨
    ∃ len, macLen alg = some len ∧ 20 ≤ len ∧ ¬(alg.code.toNat < 2 ∨ 4 < alg.code.toNat) := by
  cases alg with
  | md4 | md5 => exact .inl ⟨rfl, by decide⟩
  | sha1 | sha256 | sha512 => exact .inr ⟨_, rfl, by norm_num, by decide⟩
  | reserved c => exact .inl ⟨rfl, .inr (of_decide_eq_true hwf)⟩

theorem hotpTrunc_completesAsSaid {alg : Alg} (hwf : alg.wf = true) (s : State) :
    CompletesAsSaid (.hotpTrunc alg) s := by
  unfold CompletesAsSaid
  obtain ⟨hmac, halg⟩ | ⟨len, hmac, hlen, halg⟩ := macLen_cases hwf
  · exact .error _ (if_pos halg).symm (exec_hotpTrunc_of_macLen_none hmac)
  · rw [expectedCode, if_neg halg, ← s.digits_eq_digitsField]
    by_cases hdigits : s.digits < 6 ∨ 10 < s.digits
    · rw [if_pos hdigits]
      exact .error _ rfl (exec_hotpTrunc_of_digits hmac hdigits)
    rw [if_neg hdigits]
    by_cases htoff : 15 < toffField s ∧ toffField s ≠ 255
    · rw [if_pos htoff]
      obtain ⟨hlarge, hfixed⟩ := htoff
      have hoff := selectOffset_eq_none hlen hlarge hfixed
      exact .error _ rfl (exec_hotpTrunc_of_offset_none hmac hdigits hoff)
    · have hoff := selectOffset_of_toffField (s := s) hlen (by omega)
      rw [if_neg htoff]
      refine .success _ _ rfl ?_ (exec_hotpTrunc_of_offset hmac hdigits hoff)
      rw [LengthOf, ← s.digits_eq_digitsField]
      exact hotpText_length _ _ _

theorem totpCtr_completesAsSaid (s : State) : CompletesAsSaid .totpCtr s := by
  unfold CompletesAsSaid
  rw [expectedCode]
  by_cases hstep : s.totpStep = 0
  · rw [if_pos hstep]
    exact .error _ rfl (exec_totpCtr_of_step_zero (State.stepSeconds_eq_zero_iff.mpr hstep))
  · rw [if_neg hstep]
    replace hstep := mt State.stepSeconds_eq_zero_iff.mp hstep
    by_cases htime : s.totpTime.toInt < 3600 * s.totpUtcoff.toInt
    · rw [if_pos htime]
      exact .error _ rfl (exec_totpCtr_of_time_neg hstep (Int.sub_neg_of_lt htime))
    · rw [if_neg htime]
      exact .success _ _ rfl (dwordBytes_length _) (exec_totpCtr_of_time hstep (mt Int.lt_of_sub_neg htime))

/-- The checks of every command that a word encodes are those of R182, in its order. -/
theorem exec_completesAsSaid {i : Instr} (hwf : i.WellFormed) (s : State) : CompletesAsSaid i s := by
  cases i with
  | fold alg => exact fold_completesAsSaid hwf s
  | wordEnc => exact wordEnc_completesAsSaid s
  | hexEnc => exact hexEnc_completesAsSaid s
  | ctrMsg => exact .success _ s rfl (dwordBytes_length _) rfl
  | hotpTrunc alg => exact hotpTrunc_completesAsSaid hwf s
  | totpCtr => exact totpCtr_completesAsSaid s

/-- A term that no word encodes runs as one that some word does: `exec` does not look at a reserved code. -/
theorem exists_wellFormed_exec_eq (i : Instr) (s : State) : ∃ j : Instr, j.WellFormed ∧ exec i s = exec j s := by
  cases hwf : i.wf with
  | true => exact ⟨i, hwf, rfl⟩
  | false =>
    cases i with
    | fold alg => cases alg with
      | reserved c => exact ⟨.fold (.reserved 5), by decide, rfl⟩
      | _ => cases hwf
    | hotpTrunc alg => cases alg with
      | reserved c => exact ⟨.hotpTrunc (.reserved 5), by decide, rfl⟩
      | _ => cases hwf
    | wordEnc | hexEnc | ctrMsg | totpCtr => cases hwf

/-- The completion of the command in CUR, legal or not (60_exceptions.md R182, R184). -/
theorem completeCurrent_completesWith (s : State) : CompletesWith s (completionCode s)
    (fun n => ∃ i, decode s.cur = .ok i ∧ LengthOf i s n) (completeCurrent s) := by
  cases hdecode : decode s.cur with
  | error e =>
    rw [completionCode, hdecode]
    exact .error _ rfl (completeCurrent_of_decode_error hdecode)
  | ok i =>
    rw [completionCode, hdecode, completeCurrent_of_decode hdecode]
    obtain ⟨hwf, -⟩ := encoding_of_decode hdecode
    obtain ⟨k, hcode, hnext⟩ | ⟨out, u, hcode, hlen, hnext⟩ := exec_completesAsSaid hwf s
    · exact .error k hcode hnext
    · exact .success out u hcode ⟨i, rfl, hlen⟩ hnext

/-! ### Completion and errors -/

/-- Settles O12: both completions leave the flags so, and the code is one of the check order's. -/
theorem everyCommandCompletes : Obligations.EveryCommandCompletes := by
  intro i s
  obtain ⟨j, hwf, hexec⟩ := exists_wellFormed_exec_eq i s
  rw [hexec]
  obtain ⟨k, hcode, hnext⟩ | ⟨out, u, -, -, hnext⟩ := exec_completesAsSaid hwf s
  · exact ⟨_, hnext, rfl, rfl, iff_of_true rfl k.code_ne_zero, hcode ▸ expectedCode_mem j s⟩
  · exact ⟨_, hnext, rfl, rfl, by simp, .inl rfl⟩

/-- Settles O13: an error completion does what R185 says, and a code that is not 0 is that of an error completion. -/
theorem errorDiscardsEveryWrite : Obligations.ErrorDiscardsEveryWrite := by
  refine ⟨fun k c s hentry => ?_, fun s hreported => ?_⟩
  · exact ⟨_, rfl, errorTable_code hentry ▸ errorComplete_errorCompleted k s⟩
  · obtain ⟨k, hcode, hnext⟩ | ⟨_, _, hcode, -, -⟩ := completeCurrent_completesWith s
    · exact ⟨_, hnext, hcode ▸ errorComplete_errorCompleted k s⟩
    · exact absurd hcode hreported

/-- Settles O14: a completion that reports no error is a success completion, with an output of R184's length. -/
theorem successFillsOutput : Obligations.SuccessFillsOutput := by
  intro s t ht hsuccess
  obtain ⟨k, -, hnext⟩ | ⟨out, u, -, ⟨i, hdecode, hlen⟩, hnext⟩ := completeCurrent_completesWith s
  · cases hnext.symm.trans ht
    cases hsuccess
  · cases hnext.symm.trans ht
    obtain ⟨hdoutLen, hbytes, -⟩ := complete_output (lengthOf_le_dout hlen) u
    rw [hdoutLen]
    refine ⟨⟨rfl, rfl, rfl, rfl⟩, fun a ha ha' => ?_, i, hdecode, hlen⟩
    rw [hbytes a ha', List.getD_eq_default _ _ ha]

/-- Settles O15: either completion leaves its code in ECODE. -/
theorem errorPriority : Obligations.ErrorPriority := by
  intro s t ht
  obtain ⟨k, hcode, hnext⟩ | ⟨out, u, hcode, -, hnext⟩ := completeCurrent_completesWith s
  · cases hnext.symm.trans ht
    exact hcode
  · cases hnext.symm.trans ht
    exact hcode.symm

end Sys2Proof.Machine
end

section
/-! Reset (70_reset_and_hazards.md R200 to R202), and the completion of every command in flight (R212). -/

namespace Sys2Proof.Machine

open Sys2Proof.Claims

/-! ### The completion comes (R212) -/

/-- From s some number of steps, at most n, reaches the end of a completion (60_exceptions.md R184, R185). -/
def CompletesWithin (n : Nat) (s : State) : Prop :=
  ∃ k t, k ≤ n ∧ core.run k s = .next t ∧ t.status.busy = false ∧ t.status.done = true

/-- Every completion step clears BUSY and sets DONE, whatever word is in CUR. -/
theorem completeCurrent_completes (s : State) :
    ∃ t, completeCurrent s = .next t ∧ t.status.busy = false ∧ t.status.done = true := by
  rcases completeCurrent_cases s with ⟨k, -, hn⟩ | ⟨i, out, u, -, -, -, hn⟩
  · exact ⟨_, hn, rfl, rfl⟩
  · exact ⟨_, hn, rfl, rfl⟩

theorem CompletesWithin.of_completion {s s0 : State} (h : step s = completeCurrent s0) (n : Nat) :
    CompletesWithin (n + 1) s := by
  obtain ⟨t, ht, hbusy, hdone⟩ := completeCurrent_completes s0
  exact ⟨1, t, Nat.le_add_left 1 n, run_succ 0 (h.trans ht), hbusy, hdone⟩

theorem CompletesWithin.of_step {s t : State} {n : Nat} (h : step s = .next t) (ht : CompletesWithin n t) :
    CompletesWithin (n + 1) s := by
  obtain ⟨k, u, hk, hrun, hended⟩ := ht
  exact ⟨k + 1, u, Nat.succ_le_succ hk, (run_succ k h).trans hrun, hended⟩

/-- A command in flight completes at the first turn of the Block, and the host's turns before it leave it in flight. -/
theorem completesWithin_of_quiet {turns : List Turn} : ∀ {s : State}, s.status.busy = true → s.agenda = turns →
    (∀ u ∈ turns, u.quiet) → CompletesWithin (turns.length + 1) s := by
  induction turns with
  | nil =>
    intro s hbusy hagenda _
    exact .of_completion ((step_nil hagenda).trans (if_pos hbusy)) _
  | cons u turns ih =>
    intro s hbusy hagenda hquiet
    obtain ⟨hhead, htail⟩ := List.forall_mem_cons.mp hquiet
    cases u with
    | host acc =>
      rcases hostTurn_traced_cases (s := { s with agenda := turns }) hbusy acc with ⟨hrefused, -⟩ | ⟨t, hn, ht⟩
      · exact absurd hhead hrefused
      · exact .of_step ((step_cons hagenda).trans hn) (ih (ht.busy.trans hbusy) ht.agenda htail)
    | block => exact .of_completion (step_block_of_busy hbusy hagenda) _
    | reset => exact hhead.elim

/-- Settles O56, by induction on the agenda: the Block's turn comes in it or at its end. -/
theorem completionAlwaysComes : Obligations.CompletionAlwaysComes :=
  fun _ hbusy hquiet => completesWithin_of_quiet hbusy rfl hquiet

/-! ### The values after reset (R201) -/

/-- Settles O1: every element holds its value, and both buffers are empty. -/
theorem resetValues : Obligations.ResetValues :=
  ⟨rfl, rfl, rfl, rfl, rfl, rfl, by decide, rfl, rfl, by decide, by decide, by decide,
    rfl, rfl, rfl, rfl, rfl, rfl, rfl, by decide, Memory.read_nil, Memory.read_nil⟩

/-- Reset leaves of the old state only the model's own fields, which R201 does not name (log 12). -/
theorem resetTurn_atResetValues (s : State) : AtResetValues (resetTurn s) := resetValues

/-- Settles O2: the step is a reset turn, which does not look at what is in flight. -/
theorem resetFromAnyState : Obligations.ResetFromAnyState :=
  fun _ _ hagenda => ⟨_, step_cons hagenda, resetTurn_atResetValues _, rfl, rfl⟩

end Sys2Proof.Machine
end
